-- ==== Sys2Proof/Word.lean ====
section
/-! DEFINITION. The value type of the machine. It is a decimal machine without bits (spec/00_scope.md R12):
a cell, the accumulator, an input token and an output each hold one number, and the numerics this hardware
takes, NUM_Q, are the rational numbers (R9). Rational numbers here are Lean's own Rat (entry 6). -/

namespace Sys2Proof

/-- The carrier `Num` of NUM_Q (R9), the hardware's own: what a cell, the accumulator, an input token and an output hold. -/
abbrev Value := Rat

end Sys2Proof
end

