-- ==== Sys2Proof/Config.lean ====
section
/-! DEFINITION. What is fixed for the machine: the parameters `CAPACITY` and `NUM` (spec/00_scope.md R6, R7)
and the constants that are no parameters (R11). `NUM` is an argument of every definition of the model that uses
the numerics (R7, D1; entry 15); this hardware takes NUM_Q (Machine/Numerics.lean). There is no free value: no rule
of the spec leaves a result open under NUM_Q. -/

namespace Sys2Proof

/-- `CAPACITY` of this hardware (R6). The length of the memory array stands in `Memory.capacity`, so that
every statement over all states covers every capacity (entry 3); this is the length `State.reset` gives it. -/
def Config.capacity : Nat := 100

/-- The address at which every run begins (R11, 70_reset_and_hazards.md R98). -/
def Config.entryAddress : Nat := 0

/-- The parameter `NUM` (R7): the carrier is the argument, the operations are the fields. -/
structure Numerics (V : Type) where
  /-- the zero of the carrier -/
  zero : V
  /-- how an integer (an instruction word, an integer datum) is represented -/
  ofInt : Int → V
  add : V → V → V
  sub : V → V → V
  mul : V → V → V
  /-- used only when the divisor is not zero -/
  div : V → V → V
  /-- exact equality against zero -/
  isZero : V → Bool
  /-- strictly less than zero -/
  isNeg : V → Bool
  /-- the decoded opcode, `none` when the word has no finite value -/
  opc : V → Option Int
  /-- the decoded operand, `none` when it is not an integer -/
  opd : V → Option Int

/-- L1 of R8, on words below 10000. (`opcode*100 + operand == word` is then integer arithmetic.) -/
def Numerics.DecodesWords {V : Type} (N : Numerics V) : Prop :=
  ∀ n : Int, 0 ≤ n → n < 10000 →
    N.opc (N.ofInt n) = some (n / 100) ∧ N.opd (N.ofInt n) = some (n % 100)

/-- The laws of R8 on the numerics themselves: L1, L2, L3 and L6. `val v` is the number that `v` represents: a real
number, an infinity, or none where `v` is no number. L4 and L5 are laws of the machine and stand among the
obligations. That L2 and L3 are said through `val`, and the range of `represents`, is entry 15. -/
structure Numerics.Lawful {V : Type} (N : Numerics V) (val : V → Option EReal) : Prop where
  /-- L1 -/
  decodes : N.DecodesWords
  /-- `ofInt n` represents `n` -/
  represents : ∀ n : Int, -10000 < n → n < 10000 → val (N.ofInt n) = some ((n : ℝ) : EReal)
  /-- L2: `zero` represents zero … -/
  zeroIsZero : val N.zero = some 0
  /-- … and `isZero` is true for every representation of zero and for nothing else -/
  isZeroIff : ∀ v, N.isZero v = true ↔ val v = some 0
  /-- L3: `isNeg` is true if and only if the value is strictly negative -/
  isNegIff : ∀ v, N.isNeg v = true ↔ ∃ x, val v = some x ∧ x < 0
  /-- L6: 5 and 3 added give 8 -/
  exampleExact : val (N.add (N.ofInt 5) (N.ofInt 3)) = some 8

end Sys2Proof
end

