-- ==== Sys2Proof/Machine/Numerics.lean ====
section
/-! DEFINITION. NUM_Q, the numerics this hardware takes: exact rational arithmetic (spec/00_scope.md R9,
43_arithmetic.md R71), with the opcode and the operand of a word (30_encoding.md R48 to R51). -/

namespace Sys2Proof

/-- `trunc(q)`: the fractional part dropped, toward zero (00_scope.md R9, R12). -/
def trunc (q : Value) : Int := q.num.tdiv q.den

/-- `opc(w) = trunc(w / 100)` (R48 to R51), as one truncating division of the word's own numerator and
denominator. -/
def opc (w : Value) : Option Int := some (w.num.tdiv (100 * w.den))

/-- `opd(w) = w - 100 * trunc(w / 100)` when the word is an integer, `none` when it is not (R48 to R50). -/
def opd (w : Value) : Option Int := if w.den = 1 then some (w.num.tmod 100) else none

end Sys2Proof

namespace Sys2Proof.Machine

/-- `NUM_Q` (R9). -/
def numQ : Numerics Value where
  zero := 0
  ofInt n := (n : Value)
  add a b := a + b
  sub a b := a - b
  mul a b := a * b
  div a b := a / b
  isZero v := decide (v = 0)
  isNeg v := decide (v < 0)
  opc := Sys2Proof.opc
  opd := Sys2Proof.opd

end Sys2Proof.Machine
end

