-- ==== Sys2Proof/Syntax.lean ====
section
/-! DEFINITION. The instructions: one constructor per row of spec/opcode_table.json, the unrecognised space
among them (spec/40_run_loop.md R62 asks for one explicit constructor for it). The carrier `V` of the numerics is an argument
(00_scope.md R7); `Instr` alone is the instruction set at the hardware's own carrier. -/

namespace Sys2Proof

/-- The operand of a word with a recognised opcode (30_encoding.md R48, R50, R54). -/
inductive Operand (V : Type := Value) where
  /-- an integer operand: a cell address, or a branch target -/
  | address (n : Nat)
  /-- the operand of a word that is not an integer: no address (R50) -/
  | fraction (q : V)
deriving DecidableEq, Repr

/-- The instruction set (30_encoding.md R52). HALT keeps the digits it ignores and the unrecognised case
keeps its word, so that a word can be got back from its instruction (entry 10). -/
inductive Instr (V : Type := Value) where
  | read (o : Operand V)
  | write (o : Operand V)
  | load (o : Operand V)
  | store (o : Operand V)
  | add (o : Operand V)
  | sub (o : Operand V)
  | mul (o : Operand V)
  | div (o : Operand V)
  | branch (o : Operand V)
  | branchNeg (o : Operand V)
  | branchZero (o : Operand V)
  | halt (ignored : Operand V)
  | unrecognised (word : V)
deriving DecidableEq, Repr

end Sys2Proof
end

