-- ==== Sys2Proof/Machine/State.lean ====
section
/-! DEFINITION. The state of the machine (spec/10_state.md R13), the state after reset (R25), and the reasons
a step could stop with. Everything that holds a cell's value takes the carrier `V` of the numerics as an argument
(00_scope.md R7); without it, it is the hardware's own, at `Value`. -/

namespace Sys2Proof.Machine

/-- The memory array (R14): its fixed length, and the cells that hold something else than zero, as pairs of
address and value. `Memory.wf` (Machine/Ops.lean) says the one canonical form. -/
structure Memory (V : Type := Value) where
  /-- `CAPACITY`, the array's length, never changed (R6, R14; entry 3) -/
  capacity : Nat
  cells : List (Nat × V)
deriving DecidableEq, Repr

/-- The run state (R19). -/
inductive RunState where
  | ready
  | running
  | halted
deriving DecidableEq, Repr

/-- The kinds of fault the spec names (60_exceptions.md R83, R84, R87). -/
inductive FaultKind where
  | addressFault
  | arithmeticFault
deriving DecidableEq, Repr

/-- What the fault status records (R22). -/
structure FaultRecord where
  kind : FaultKind
  /-- the address of the faulting instruction, or the out-of-range `pc` of a fetch fault -/
  at' : Nat
deriving DecidableEq, Repr

/-- A token of the input port (R28). -/
inductive Token (V : Type := Value) where
  | num (v : V)
  | malformed
deriving DecidableEq, Repr

/-- An event on the diagnostic channel (R29). -/
inductive DiagEvent where
  /-- `Warn(MalformedInput, at)` -/
  | warnMalformedInput (at' : Nat)
  /-- `Fault(kind, at)` -/
  | fault (kind : FaultKind) (at' : Nat)
deriving DecidableEq, Repr

/-- A control event (R27) or an access operation (R31) of the host. The address of an access is any integer, in range or
not (entry 16). -/
inductive HostCommand (V : Type := Value) where
  | reset
  | start
  | write (a : Int) (v : V)
  | read (a : Int)
  | getAcc
  | setAcc (v : V)
  | getPc
  | setPc (n : Nat)
deriving DecidableEq, Repr

/-- What an access operation returns to the host (R31). -/
inductive HostReply (V : Type := Value) where
  | value (v : V)
  | count (n : Nat)
  /-- an out-of-range address: refused with no effect -/
  | refused
deriving DecidableEq, Repr

/-- The state: the five items of R13, the tokens on offer (R28), the two records (R29), and the host's
pending acts with what they returned (entries 1 and 5). -/
@[ext]
structure State (V : Type := Value) where
  mem : Memory V
  acc : V
  pc : Nat
  rs : RunState
  fault : Option FaultRecord
  /-- the tokens the host has on offer, oldest first (R28) -/
  inputs : List (Token V)
  /-- the values emitted on the output port, in order (R29) -/
  out : List V
  /-- the events emitted on the diagnostic channel, in order (R29) -/
  diag : List DiagEvent
  /-- the host's pending control events and access operations, oldest first (entry 1) -/
  commands : List (HostCommand V)
  /-- what the host's access operations returned, in order (entry 5) -/
  replies : List (HostReply V)
deriving DecidableEq, Repr

/-- Why a step could stop with a fault. There is no such reason, so there is no constructor: both faults of
the spec end the RUN, not the machine, and their entry is a next state (60_exceptions.md R89, R94; entry 12). -/
inductive Fault where
deriving DecidableEq, Repr

/-- Why a step could be refused. -/
inductive Refusal where
  /-- Raised only by an arm of `exec` whose instruction has no meaning yet. Safe: nothing can be proved of a
  next state. No arm of this model answers it. -/
  | notModelled (mnemonic : String)
deriving DecidableEq, Repr

/-- What a meaning answers. -/
abbrev Result (V : Type := Value) := Host.Outcome (State V) Fault Refusal

/-- Memory as engine initialization leaves it: every cell zero (R14, R25). No cell is listed, and an unlisted cell
reads as the numerics' zero (`Memory.unlisted`, Machine/Ops.lean). -/
def Memory.zeroFilled {V : Type} (capacity : Nat) : Memory V := { capacity := capacity, cells := [] }

/-- The state after `reset` (R25, 70_reset_and_hazards.md R96), for a capacity and numerics given. The last two
lists and the tokens on offer are the host's and empty (entries 1, 4, 5). -/
def State.resetWith {V : Type} (capacity : Nat) (N : Numerics V) : State V where
  mem := Memory.zeroFilled capacity
  acc := N.zero
  pc := 0
  rs := .ready
  fault := none
  inputs := []
  out := []
  diag := []
  commands := []
  replies := []

/-- The hardware after `reset`: `CAPACITY = 100`, NUM_Q (00_scope.md R6, R9). -/
def State.reset : State := State.resetWith Config.capacity numQ

end Sys2Proof.Machine
end

