-- ==== Sys2Proof/Machine/Ops.lean ====
section
/-! DEFINITION. The named operations over memory and registers, and the fault entry: everything through which
the meanings read and write the state (spec/20_memory.md, 40_run_loop.md, 60_exceptions.md R89). What needs the
numerics takes them as the argument `N` (00_scope.md R7); the short name without `With` is the hardware's own. -/

namespace Sys2Proof.Machine

variable {V : Type}

/-! ## Memory -/

/-- What a cell that is not listed reads as: a cell nothing has written since reset holds zero
(20_memory.md R45). -/
def Memory.unlisted (N : Numerics V) : V := N.zero

/-- The value listed for an address, `z` where none is. -/
def lookupCell (z : V) : List (Nat × V) → Nat → V
  | [], _ => z
  | (b, v) :: rest, a => if a = b then v else lookupCell z rest a

/-- The listing with `v` at address `a`: sorted insertion, and the entry goes when `v` is `z`, what an unlisted
cell reads as. -/
def updateCell [DecidableEq V] (z : V) : List (Nat × V) → Nat → V → List (Nat × V)
  | [], a, v => if v = z then [] else [(a, v)]
  | (b, u) :: rest, a, v =>
    if a < b then (if v = z then (b, u) :: rest else (a, v) :: (b, u) :: rest)
    else if a = b then (if v = z then rest else (a, v) :: rest)
    else (b, u) :: updateCell z rest a v

/-- The content `mem[a]` of a cell. -/
def Memory.getWith (N : Numerics V) (m : Memory V) (a : Nat) : V :=
  lookupCell (Memory.unlisted N) m.cells a

/-- `mem[a] <- v`. -/
def Memory.setWith [DecidableEq V] (N : Numerics V) (m : Memory V) (a : Nat) (v : V) : Memory V :=
  { m with cells := updateCell (Memory.unlisted N) m.cells a v }

/-- The canonical form: addresses strictly rising, every address inside the array, no listed value equal to
what an unlisted cell reads as. -/
abbrev Memory.wfWith (N : Numerics V) (m : Memory V) : Prop :=
  m.cells.Pairwise (fun c d => c.1 < d.1) ∧
    ∀ c ∈ m.cells, c.1 < m.capacity ∧ c.2 ≠ Memory.unlisted N

/-- `MemRead(a, 1)` (R35): the bounds check, then the access; `none` is the AddressFault. -/
def memReadWith (N : Numerics V) (m : Memory V) (a : Nat) : Option V :=
  if a < m.capacity then some (m.getWith N a) else none

/-- `MemWrite(a, 1, v)` (R35): the bounds check, then the access; `none` is the AddressFault, and nothing
is written. -/
def memWriteWith [DecidableEq V] (N : Numerics V) (m : Memory V) (a : Nat) (v : V) :
    Option (Memory V) :=
  if a < m.capacity then some (m.setWith N a v) else none

/-- `getWith` of the hardware. -/
abbrev Memory.get (m : Memory) (a : Nat) : Value := m.getWith numQ a

/-- `setWith` of the hardware. -/
abbrev Memory.set (m : Memory) (a : Nat) (v : Value) : Memory := m.setWith numQ a v

/-- `wfWith` of the hardware. -/
abbrev Memory.wf (m : Memory) : Prop := m.wfWith numQ

/-- `memReadWith` of the hardware. -/
abbrev memRead (m : Memory) (a : Nat) : Option Value := memReadWith numQ m a

/-- `memWriteWith` of the hardware. -/
abbrev memWrite (m : Memory) (a : Nat) (v : Value) : Option Memory := memWriteWith numQ m a v

/-! ## Registers, ports and run state -/

/-- The increment that is part of the fetch (40_run_loop.md R61). -/
def State.advance (s : State V) : State V := { s with pc := s.pc + 1 }

/-- `acc <- v`. -/
def State.setAcc (v : V) (s : State V) : State V := { s with acc := v }

/-- `pc <- t`. -/
def State.setPc (t : Nat) (s : State V) : State V := { s with pc := t }

/-- The memory replaced by one that `setWith` or `memWriteWith` made. -/
def State.setMem (m : Memory V) (s : State V) : State V := { s with mem := m }

/-- The tokens left on offer after `InputTake()` (10_state.md R28). -/
def State.setInputs (ts : List (Token V)) (s : State V) : State V := { s with inputs := ts }

/-- `Output(v)` (10_state.md R29). -/
def State.emit (v : V) (s : State V) : State V := { s with out := s.out ++ [v] }

/-- `Diag(e)` (10_state.md R29). -/
def State.report (e : DiagEvent) (s : State V) : State V := { s with diag := s.diag ++ [e] }

/-- `rs <- Halted` (44_control.md R79). -/
def State.halt (s : State V) : State V := { s with rs := .halted }

/-! ## Fetch and fault entry -/

/-- The fetch `MemRead(pc, 1)` (40_run_loop.md R60); `none` is the fetch's AddressFault. -/
def fetchWith (N : Numerics V) (s : State V) : Option V := memReadWith N s.mem s.pc

/-- `fetchWith` of the hardware. -/
abbrev fetch (s : State) : Option Value := fetchWith numQ s

/-- Fault entry (60_exceptions.md R89): the kind and the place are recorded, the run ends, the fault is
reported; nothing else changes. There is no return from it but `start` (R91). -/
def raise (k : FaultKind) (at' : Nat) (s : State V) : State V :=
  { s with fault := some { kind := k, at' := at' }, rs := .halted, diag := s.diag ++ [.fault k at'] }

/-- A fault raised while the instruction at `pc` executes: its own effects are abandoned, the increment of
the fetch stands, and the fault's place is the instruction's address (R61, R63, R89, R90). -/
def abandon (k : FaultKind) (s : State V) : Result V := .next (raise k s.pc s.advance)

/-- The numeric cause code of the fault status (R87). -/
def causeCode : Option FaultRecord → Nat
  | none => 0
  | some ⟨.addressFault, _⟩ => 1
  | some ⟨.arithmeticFault, _⟩ => 2

end Sys2Proof.Machine
end

