-- ==== Sys2Proof/Machine/Operands.lean ====
section
/-! DEFINITION. The operand forms (spec/30_encoding.md R54): a direct cell address, an absolute branch target.
A meaning receives the state at the START of its step, with `pc` at the instruction's own address; the
increment of the fetch (40_run_loop.md R61) is made here by `State.advance` (entry 13). -/

namespace Sys2Proof.Machine

variable {V : Type}

/-- The cell the operand names: an integer inside memory. `none` is the AddressFault (20_memory.md R35,
30_encoding.md R50). -/
def operandCell (o : Operand V) (m : Memory V) : Option Nat :=
  match o with
  | .address n => if n < m.capacity then some n else none
  | .fraction _ => none

/-- The branch target: the operand itself, not checked against the capacity; `none` for a non-integer
operand (44_control.md R76). -/
def operandTarget (o : Operand V) : Option Nat :=
  match o with
  | .address n => some n
  | .fraction _ => none

/-- `MemRead(operand, 1)`. -/
def operandRead (N : Numerics V) (o : Operand V) (m : Memory V) : Option V :=
  match o with
  | .address n => memReadWith N m n
  | .fraction _ => none

/-- `MemWrite(operand, 1, v)`. -/
def operandWrite [DecidableEq V] (N : Numerics V) (o : Operand V) (v : V) (m : Memory V) :
    Option (Memory V) :=
  match o with
  | .address n => memWriteWith N m n v
  | .fraction _ => none

/-- The shape of WRITE, LOAD and the arithmetic: read the operand's cell, then `f` of the value on the state
whose `pc` is past the instruction; AddressFault where the operand names no cell (40_run_loop.md R63). -/
def withValue (N : Numerics V) (o : Operand V) (s : State V) (f : V → State V → State V) : Result V :=
  match operandRead N o s.mem with
  | none => abandon .addressFault s
  | some v => .next (f v s.advance)

/-- The shape of the branches: AddressFault for a non-integer operand, taken or not (30_encoding.md R50);
else `pc <- operand` when the condition holds, and the fallthrough of the fetch when not. -/
def branchIf (taken : Bool) (o : Operand V) (s : State V) : Result V :=
  match operandTarget o with
  | none => abandon .addressFault s
  | some t => .next (if taken then s.advance.setPc t else s.advance)

end Sys2Proof.Machine
end

