-- ==== Sys2Proof/Machine/Arithmetic.lean ====
section
/-! DEFINITION. ADD, SUB, MUL, DIV (spec/43_arithmetic.md). The accumulator is the left operand, the cell the
right one, and the result replaces the accumulator (R71). -/

namespace Sys2Proof.Machine

variable {V : Type}

/-- ADD (R72). -/
def execAddWith (N : Numerics V) (o : Operand V) (s : State V) : Result V :=
  withValue N o s fun v t => t.setAcc (N.add t.acc v)

/-- SUB (R73). -/
def execSubWith (N : Numerics V) (o : Operand V) (s : State V) : Result V :=
  withValue N o s fun v t => t.setAcc (N.sub t.acc v)

/-- MUL (R74). -/
def execMulWith (N : Numerics V) (o : Operand V) (s : State V) : Result V :=
  withValue N o s fun v t => t.setAcc (N.mul t.acc v)

/-- DIV (R75): the divisor is read, then tested; a zero divisor raises ArithmeticFault at the DIV. -/
def execDivWith (N : Numerics V) (o : Operand V) (s : State V) : Result V :=
  withValue N o s fun v t =>
    if N.isZero v then raise .arithmeticFault s.pc t else t.setAcc (N.div t.acc v)

/-- ADD of the hardware. -/
def execAdd (o : Operand) (s : State) : Result := execAddWith numQ o s

/-- SUB of the hardware. -/
def execSub (o : Operand) (s : State) : Result := execSubWith numQ o s

/-- MUL of the hardware. -/
def execMul (o : Operand) (s : State) : Result := execMulWith numQ o s

/-- DIV of the hardware. -/
def execDiv (o : Operand) (s : State) : Result := execDivWith numQ o s

end Sys2Proof.Machine
end

