-- ==== Sys2Proof/Machine/Flags.lean ====
section
/-! DEFINITION. The machine has no flags (spec/10_state.md R18): the two conditions are computed from the
accumulator at the moment a branch tests it. -/

namespace Sys2Proof.Machine

variable {V : Type}

/-- `acc < 0`, the condition of BRANCHNEG (44_control.md R77). -/
def accIsNeg (N : Numerics V) (s : State V) : Bool := N.isNeg s.acc

/-- `acc = 0`, the condition of BRANCHZERO (R78). -/
def accIsZero (N : Numerics V) (s : State V) : Bool := N.isZero s.acc

end Sys2Proof.Machine
end

