-- ==== Sys2Proof/Machine/Control.lean ====
section
/-! DEFINITION. BRANCH, BRANCHNEG, BRANCHZERO, HALT and the unrecognised opcode (spec/44_control.md). -/

namespace Sys2Proof.Machine

variable {V : Type}

/-- BRANCH (R76). -/
def execBranchWith (o : Operand V) (s : State V) : Result V := branchIf true o s

/-- BRANCHNEG (R77). -/
def execBranchNegWith (N : Numerics V) (o : Operand V) (s : State V) : Result V :=
  branchIf (accIsNeg N s) o s

/-- BRANCHZERO (R78). -/
def execBranchZeroWith (N : Numerics V) (o : Operand V) (s : State V) : Result V :=
  branchIf (accIsZero N s) o s

/-- HALT (R79): the operand is not looked at. -/
def execHaltWith (_ignored : Operand V) (s : State V) : Result V := .next s.advance.halt

/-- The implicit halt of an unrecognised opcode, exactly as HALT (R80, 30_encoding.md R53). -/
def execUnrecognisedWith (_word : V) (s : State V) : Result V := .next s.advance.halt

/-- BRANCH of the hardware. -/
def execBranch (o : Operand) (s : State) : Result := execBranchWith o s

/-- BRANCHNEG of the hardware. -/
def execBranchNeg (o : Operand) (s : State) : Result := execBranchNegWith numQ o s

/-- BRANCHZERO of the hardware. -/
def execBranchZero (o : Operand) (s : State) : Result := execBranchZeroWith numQ o s

/-- HALT of the hardware. -/
def execHalt (ignored : Operand) (s : State) : Result := execHaltWith ignored s

/-- The unrecognised opcode of the hardware. -/
def execUnrecognised (word : Value) (s : State) : Result := execUnrecognisedWith word s

end Sys2Proof.Machine
end

