-- ==== Sys2Proof/Machine/InputOutput.lean ====
section
/-! DEFINITION. READ and WRITE (spec/41_io.md). -/

namespace Sys2Proof.Machine

variable {V : Type}

/-- The effect of READ once its operand is valid and it has its token: the value, or zero and a warning
(R66, 60_exceptions.md R85). `at'` is the READ's address. -/
def receive [DecidableEq V] (N : Numerics V) (at' a : Nat) (t : Token V) (s : State V) : State V :=
  match t with
  | .num v => s.setMem (s.mem.setWith N a v)
  | .malformed => (s.setMem (s.mem.setWith N a N.zero)).report (.warnMalformedInput at')

/-- READ (R66). The operand is checked before a token is taken; while no token is on offer the step has not
happened and nothing changes (R67; entry 14). -/
def execReadWith [DecidableEq V] (N : Numerics V) (o : Operand V) (s : State V) : Result V :=
  match operandCell o s.mem with
  | none => abandon .addressFault s
  | some a =>
    match s.inputs with
    | [] => .next s
    | t :: rest => .next (receive N s.pc a t (s.advance.setInputs rest))

/-- WRITE (R68). -/
def execWriteWith (N : Numerics V) (o : Operand V) (s : State V) : Result V :=
  withValue N o s fun v t => t.emit v

/-- READ of the hardware. -/
def execRead (o : Operand) (s : State) : Result := execReadWith numQ o s

/-- WRITE of the hardware. -/
def execWrite (o : Operand) (s : State) : Result := execWriteWith numQ o s

end Sys2Proof.Machine
end

