-- ==== Sys2Proof/Machine/LoadStore.lean ====
section
/-! DEFINITION. LOAD and STORE (spec/42_load_store.md). -/

namespace Sys2Proof.Machine

variable {V : Type}

/-- LOAD (R69). -/
def execLoadWith (N : Numerics V) (o : Operand V) (s : State V) : Result V :=
  withValue N o s fun v t => t.setAcc v

/-- STORE (R70). -/
def execStoreWith [DecidableEq V] (N : Numerics V) (o : Operand V) (s : State V) : Result V :=
  match operandWrite N o s.acc s.mem with
  | none => abandon .addressFault s
  | some m => .next (s.advance.setMem m)

/-- LOAD of the hardware. -/
def execLoad (o : Operand) (s : State) : Result := execLoadWith numQ o s

/-- STORE of the hardware. -/
def execStore (o : Operand) (s : State) : Result := execStoreWith numQ o s

end Sys2Proof.Machine
end

