-- ==== Sys2Proof/Machine/Dispatch.lean ====
section
/-! DEFINITION. The dispatch of spec/40_run_loop.md R62: one arm per instruction. -/

namespace Sys2Proof.Machine

/-- The operation of a decoded instruction, on the state at the start of its step (`pc` at its address). -/
def exec (i : Instr) (s : State) : Host.Outcome State Fault Refusal :=
  match i with
  | .read o => Sys2Proof.Machine.execRead o s
  | .write o => Sys2Proof.Machine.execWrite o s
  | .load o => Sys2Proof.Machine.execLoad o s
  | .store o => Sys2Proof.Machine.execStore o s
  | .add o => Sys2Proof.Machine.execAdd o s
  | .sub o => Sys2Proof.Machine.execSub o s
  | .mul o => Sys2Proof.Machine.execMul o s
  | .div o => Sys2Proof.Machine.execDiv o s
  | .branch o => Sys2Proof.Machine.execBranch o s
  | .branchNeg o => Sys2Proof.Machine.execBranchNeg o s
  | .branchZero o => Sys2Proof.Machine.execBranchZero o s
  | .halt o => Sys2Proof.Machine.execHalt o s
  | .unrecognised w => Sys2Proof.Machine.execUnrecognised w s

end Sys2Proof.Machine
end

