-- ==== Sys2Proof/WellFormed.lean ====
section
/-! DEFINITION. Which terms of `Instr` some word stands for: the ranges of the fields as the encoding of
spec/30_encoding.md gives them (R47, R50, R52, R53). They are the ranges of the hardware's own words, those of NUM_Q:
the record of 00_scope.md R7 has no order to state them by. -/

namespace Sys2Proof

/-- The recognised opcode set (R52). -/
def recognisedOpcodes : List Nat := [10, 11, 20, 21, 30, 31, 32, 33, 40, 41, 42, 43]

/-- The opcode of an instruction in the opcode map (R52); the unrecognised case has none of the set. -/
def Instr.opcode {V : Type} : Instr V → Option Nat
  | .read _ => some 10
  | .write _ => some 11
  | .load _ => some 20
  | .store _ => some 21
  | .add _ => some 30
  | .sub _ => some 31
  | .mul _ => some 32
  | .div _ => some 33
  | .branch _ => some 40
  | .branchNeg _ => some 41
  | .branchZero _ => some 42
  | .halt _ => some 43
  | .unrecognised _ => none

/-- Two decimal digits (R47), or the operand of a non-integer word, which lies strictly between 0 and 100
and is no integer (R50). -/
def Operand.wf : Operand → Bool
  | .address n => decide (n < 100)
  | .fraction q => decide (0 < q) && decide (q < 100) && decide (q.den ≠ 1)

/-- The word lies in the range of opcode `c`: `100*c` and up, below `100*c + 100` (R52, R50). -/
def inRowOf (c : Nat) (w : Value) : Bool :=
  decide (((100 * c : Nat) : Value) ≤ w) && decide (w < ((100 * c + 100 : Nat) : Value))

/-- A word that no row of the opcode table takes (R53). -/
def isUnrecognisedWord (w : Value) : Bool :=
  recognisedOpcodes.all fun c => !inRowOf c w

/-- The instruction stands for a word. -/
def Instr.wf : Instr → Bool
  | .read o => o.wf
  | .write o => o.wf
  | .load o => o.wf
  | .store o => o.wf
  | .add o => o.wf
  | .sub o => o.wf
  | .mul o => o.wf
  | .div o => o.wf
  | .branch o => o.wf
  | .branchNeg o => o.wf
  | .branchZero o => o.wf
  | .halt o => o.wf
  | .unrecognised w => isUnrecognisedWord w

end Sys2Proof
end

