-- ==== Sys2Proof/Decode.lean ====
section
/-! DEFINITION. Decoding a fetched word (spec/30_encoding.md R48 to R53), total on every word, and the
encoder, written from the opcode map (R52). Both take the numerics as an argument (00_scope.md R7); `decode` and
`encode` are the hardware's own, at NUM_Q. -/

namespace Sys2Proof

variable {V : Type}

/-- The operand of a word whose opcode is `c`. An integer word with a recognised opcode is positive, so its
operand is a natural number (R48). A word without an integer operand leaves `w - 100 * c`, which is no address
(R50); neither is an integer below zero, which no admissible numerics gives such a word (20_memory.md R35; entry 15). -/
def operandOfWith (N : Numerics V) (c : Int) (w : V) : Operand V :=
  match N.opd w with
  | some n => if 0 ≤ n then .address n.toNat else .fraction (N.sub w (N.ofInt (100 * c)))
  | none => .fraction (N.sub w (N.ofInt (100 * c)))

/-- The opcode map (R52); every other opcode is the unrecognised case (R53). -/
def instrOf (c : Int) (o : Operand V) (w : V) : Instr V :=
  if c = 10 then .read o
  else if c = 11 then .write o
  else if c = 20 then .load o
  else if c = 21 then .store o
  else if c = 30 then .add o
  else if c = 31 then .sub o
  else if c = 32 then .mul o
  else if c = 33 then .div o
  else if c = 40 then .branch o
  else if c = 41 then .branchNeg o
  else if c = 42 then .branchZero o
  else if c = 43 then .halt o
  else .unrecognised w

/-- Decode of the value of one cell (R48 to R53). A word without an opcode is unrecognised (R50, R53). -/
def decodeWith (N : Numerics V) (w : V) : Instr V :=
  match N.opc w with
  | some c => instrOf c (operandOfWith N c w) w
  | none => .unrecognised w

/-- The hardware's decoder: NUM is NUM_Q (00_scope.md R7, R9). -/
def decode (w : Value) : Instr := decodeWith Machine.numQ w

/-- The word `100 * c` plus the operand: the two low decimal digits (R47), or the rest of a word that is no
integer (R50). -/
def wordOf (N : Numerics V) (c : Int) : Operand V → V
  | .address n => N.ofInt (100 * c + n)
  | .fraction q => N.add (N.ofInt (100 * c)) q

/-- The word of an instruction: `OOAA` of the opcode map (R52), or the word itself where it is unrecognised. -/
def encodeWith (N : Numerics V) : Instr V → V
  | .read o => wordOf N 10 o
  | .write o => wordOf N 11 o
  | .load o => wordOf N 20 o
  | .store o => wordOf N 21 o
  | .add o => wordOf N 30 o
  | .sub o => wordOf N 31 o
  | .mul o => wordOf N 32 o
  | .div o => wordOf N 33 o
  | .branch o => wordOf N 40 o
  | .branchNeg o => wordOf N 41 o
  | .branchZero o => wordOf N 42 o
  | .halt o => wordOf N 43 o
  | .unrecognised w => w

/-- The hardware's encoder, at NUM_Q. -/
def encode (i : Instr) : Value := encodeWith Machine.numQ i

/-- The instruction the decoder reads from the cell that holds the number `w`. A cell has no bits
(00_scope.md R12), so `w` is the cell's value and `nbits` plays no part (entry 11). -/
def decodeTableWord (_nbits w : Nat) : Option Instr := some (decode (w : Value))

end Sys2Proof
end

