-- ==== Sys2Proof/Machine/HostMoves.lean ====
section
/-! DEFINITION. The host's side of the block (spec/10_state.md R24 to R31, 70_reset_and_hazards.md R96, R98).
The engine owns memory and registers while it is running (R30), so `step` gives the host its turn only when the
run state is Ready or Halted. -/

namespace Sys2Proof.Machine

variable {V : Type}

/-- The event `reset` (R96): the values of R25; the tokens and acts the host still has and what it was answered
are its own (entries 1, 4, 5), and the array keeps its length (R14). -/
def resetEvent (N : Numerics V) (s : State V) : State V :=
  { s with
    mem := Memory.zeroFilled s.mem.capacity
    acc := N.zero
    pc := 0
    rs := .ready
    fault := none
    out := []
    diag := [] }

/-- The event `start` (R98): a fresh pass from the entry address; memory and accumulator are kept. -/
def startEvent (s : State V) : State V :=
  { s with pc := Config.entryAddress, rs := .running, fault := none }

/-- What an access operation returns goes on the record of replies (entry 5). -/
def State.answer (r : HostReply V) (s : State V) : State V := { s with replies := s.replies ++ [r] }

/-- The cell that the address of an access names, `0 <= a < CAPACITY` (R31). `none` is the refusal. -/
def hostCell (a : Int) (m : Memory V) : Option Nat :=
  if 0 ≤ a ∧ a < m.capacity then some a.toNat else none

/-- One act of the host (R27, R31). An out-of-range address is refused with no effect. -/
def perform [DecidableEq V] (N : Numerics V) (c : HostCommand V) (s : State V) : State V :=
  match c with
  | .reset => resetEvent N s
  | .start => startEvent s
  | .write a v =>
    match hostCell a s.mem with
    | some n => s.setMem (s.mem.setWith N n v)
    | none => s.answer .refused
  | .read a =>
    match hostCell a s.mem with
    | some n => s.answer (.value (s.mem.getWith N n))
    | none => s.answer .refused
  | .getAcc => s.answer (.value s.acc)
  | .setAcc v => s.setAcc v
  | .getPc => s.answer (.count s.pc)
  | .setPc n => s.setPc n

/-- The host's turn: its next pending act, or nothing. The engine takes no step in Ready
and Halted (R59, R65), so a step that is the host's turn is the model's choice (entry 1). -/
def hostTurn [DecidableEq V] (N : Numerics V) (s : State V) : State V :=
  match s.commands with
  | [] => s
  | c :: rest => perform N c { s with commands := rest }

/-- The host offers one more token (R28). It may do so at any time, a run included (R30). -/
def State.offer (t : Token V) (s : State V) : State V := { s with inputs := s.inputs ++ [t] }

end Sys2Proof.Machine
end

