-- ==== Sys2Proof/Machine/Parametric.lean ====
section
/-! DEFINITION. The machine over any numerics, `NUM` being an argument (spec/00_scope.md R7, 92_eei_decisions.md D1;
entry 15): one step of it (40_run_loop.md R59 to R62). The hardware's `exec` and `step` are these at NUM_Q. -/

namespace Sys2Proof.Machine

variable {V : Type} [DecidableEq V]

/-- The dispatch of R62 over the numerics `N`. -/
def execWith (N : Numerics V) (i : Instr V) (s : State V) : Result V :=
  match i with
  | .read o => execReadWith N o s
  | .write o => execWriteWith N o s
  | .load o => execLoadWith N o s
  | .store o => execStoreWith N o s
  | .add o => execAddWith N o s
  | .sub o => execSubWith N o s
  | .mul o => execMulWith N o s
  | .div o => execDivWith N o s
  | .branch o => execBranchWith o s
  | .branchNeg o => execBranchNegWith N o s
  | .branchZero o => execBranchZeroWith N o s
  | .halt o => execHaltWith o s
  | .unrecognised w => execUnrecognisedWith w s

/-- One step with the dispatch `ex`. While Running, one whole instruction: fetch, decode, dispatch; a fetch outside
memory raises AddressFault with `pc` unchanged (R60). In Ready and Halted the engine does nothing and the host has
its turn (R59, R65, 10_state.md R30; that this is a step is the model's choice, entry 1). -/
def stepBy (N : Numerics V) (ex : Instr V → State V → Result V) (s : State V) : Result V :=
  match s.rs with
  | .running =>
    match fetchWith N s with
    | none => .next (raise .addressFault s.pc s)
    | some w => ex (decodeWith N w) s
  | .ready => .next (hostTurn N s)
  | .halted => .next (hostTurn N s)

/-- One step of the machine over the numerics `N`. -/
def stepWith (N : Numerics V) (s : State V) : Result V := stepBy N (execWith N) s

end Sys2Proof.Machine
end

