-- ==== Sys2Proof/Machine/Step.lean ====
section
/-! DEFINITION. One step of the hardware (spec/40_run_loop.md R59 to R62). -/

namespace Sys2Proof.Machine

/-- The step, with the hardware's numerics and dispatch. -/
def step (s : State) : Host.Outcome State Fault Refusal := stepBy numQ exec s

/-- `s` about to run the cell value `w`: the engine running, `w` in the cell at `pc`, and `pc` at the entry
address where it is outside memory. A cell has no bits, so `nbits` plays no part (entry 11). -/
def State.withFetchWord (s : State) (_nbits w : Nat) : State :=
  let a := if s.pc < s.mem.capacity then s.pc else Config.entryAddress
  { s with mem := s.mem.set a (w : Value), pc := a, rs := .running }

end Sys2Proof.Machine
end

