-- ==== Sys2Proof/Safety.lean ====
section
/-! DEFINITION. What the claims speak of: the invariant of every reachable state, and how a run stands
(spec/10_state.md, 40_run_loop.md R64, 41_io.md R67). The invariant is the hardware's; what the statements over any
numerics speak of takes them as an argument. -/

namespace Sys2Proof.Machine

/-- The invariant. Memory keeps its canonical form and has at least one cell (R6); while the engine runs,
`pc` lies in `0 .. max(CAPACITY, 99)` (R17) and no fault is recorded; a recorded fault has ended its run and
is the last event reported (R22, 60_exceptions.md R89). -/
structure State.Inv (s : State) : Prop where
  memWf : s.mem.wf
  hasCells : 1 ≤ s.mem.capacity
  pcRange : s.rs = .running → s.pc ≤ max s.mem.capacity 99
  faultEndsRun : s.fault ≠ none → s.rs = .halted
  faultReported : ∀ f, s.fault = some f → s.diag.getLast? = some (.fault f.kind f.at')

/-- The operand names no cell of the memory: an address outside it, or no integer (20_memory.md R35,
30_encoding.md R50). -/
def namesNoCell {V : Type} (o : Operand V) (m : Memory V) : Prop := ∀ a, o = .address a → m.capacity ≤ a

/-- The state a fault of the instruction at `pc` leaves: the fetch's increment stands, the fault is recorded and
reported, the run is over, and nothing else has changed (40_run_loop.md R61, R63, 60_exceptions.md R89, R90).
Where a fault is recorded and reported is the spec's own decision (D5, D15). -/
def State.afterFault {V : Type} (k : FaultKind) (s : State V) : State V :=
  { s with
    pc := s.pc + 1
    rs := .halted
    fault := some { kind := k, at' := s.pc }
    diag := s.diag ++ [.fault k s.pc] }

/-- Instructions executed one after another by the dispatch `ex`, each from the state the one before left; the
run's end, by a fault or not, ends them. -/
def runInstrs {V : Type} (ex : Instr V → State V → Result V) : List (Instr V) → State V → Result V
  | [], s => .next s
  | i :: rest, s =>
    match ex i s with
    | .next t => if t.rs = .halted then .next t else runInstrs ex rest t
    | .fault r => .fault r
    | .refused r => .refused r

/-- `runInstrs` of the hardware. -/
def execSeq : List Instr → State → Result := runInstrs exec

/-- ADD, SUB and MUL, the operations of the source's left-to-right fold (43_arithmetic.md R71). -/
inductive FoldOp where
  | add
  | sub
  | mul
deriving DecidableEq, Repr

/-- The instruction of an operation on the cell `a`. -/
def FoldOp.instr {V : Type} (f : FoldOp) (a : Nat) : Instr V :=
  match f with
  | .add => .add (.address a)
  | .sub => .sub (.address a)
  | .mul => .mul (.address a)

/-- What the operation makes of the accumulator `x` and the cell's value `v`, over the numerics `N`. -/
def FoldOp.applyWith {V : Type} (N : Numerics V) (f : FoldOp) (x v : V) : V :=
  match f with
  | .add => N.add x v
  | .sub => N.sub x v
  | .mul => N.mul x v

/-- What the operation makes of the accumulator `x` and the cell's value `v`. -/
def FoldOp.apply (f : FoldOp) (x v : Value) : Value :=
  match f with
  | .add => x + v
  | .sub => x - v
  | .mul => x * v

/-- The run is over and ended normally (R64). -/
def State.endedNormally (s : State) : Prop := s.rs = .halted ∧ s.fault = none

/-- The run is over and ended by a fault (R64). -/
def State.endedByFault (s : State) : Prop := s.rs = .halted ∧ s.fault ≠ none

/-- A READ is the next instruction, its operand is valid, and no token is on offer (41_io.md R67). -/
def State.waiting (s : State) : Prop :=
  s.rs = .running ∧ s.inputs = [] ∧
    ∃ w o a, fetch s = some w ∧ decode w = .read o ∧ operandCell o s.mem = some a

end Sys2Proof.Machine
end

