-- ==== Sys2Proof/Certificates/Slice0/Obligations.lean ====
section
/-! DEFINITION. The statements for the provers. Where a clause rests on one of the spec's own decisions (D<n> of
spec/92_eei_decisions.md) or on a choice of the model (notes/assumptions/<n>.md, "entry n"), its docstring says so. -/

open Sys2Proof Sys2Proof.Machine

/-! ## Decoding -/

/-- Words written out digit by digit from the opcode map (30_encoding.md R52; 95_test_vectors.md, section 3.1). -/
def Obligations.DecodeOfWrittenOutWords : Prop :=
  decode 1007 = .read (.address 7) ∧ decode 1100 = .write (.address 0) ∧
  decode 2007 = .load (.address 7) ∧ decode 2199 = .store (.address 99) ∧
  decode 3008 = .add (.address 8) ∧ decode 3108 = .sub (.address 8) ∧
  decode 3208 = .mul (.address 8) ∧ decode 3308 = .div (.address 8) ∧
  decode 4010 = .branch (.address 10) ∧ decode 4107 = .branchNeg (.address 7) ∧
  decode 4209 = .branchZero (.address 9) ∧ decode 4399 = .halt (.address 99) ∧
  decode 0 = .unrecognised 0 ∧ decode 4400 = .unrecognised 4400 ∧
  decode 12345 = .unrecognised 12345

/-- R48: a word that is an integer and not negative splits into `word div 100` and `word mod 100`, the operand
lies in 0 .. 99, and the two give the word back. -/
def Obligations.IntegerWordsSplitIntoOpcodeAndOperand : Prop :=
  ∀ n : ℕ, opc (n : Value) = some ((n / 100 : ℕ) : ℤ) ∧ opd (n : Value) = some ((n % 100 : ℕ) : ℤ) ∧
    n % 100 ≤ 99 ∧ n / 100 * 100 + n % 100 = n

/-- R52: the word selects the row with opcode `c` exactly when its opcode is `c`; for integer words that is
`100*c <= w <= 100*c + 99`, and the operand is the two low digits. -/
def Obligations.OpcodeMapSelectsRowsByOpcode : Prop :=
  (∀ (w : Value) (c : ℕ), (decode w).opcode = some c ↔ c ∈ recognisedOpcodes ∧ opc w = some (c : ℤ)) ∧
  (∀ n c : ℕ, c ∈ recognisedOpcodes →
    ((decode (n : Value)).opcode = some c ↔ 100 * c ≤ n ∧ n ≤ 100 * c + 99)) ∧
  (∀ a : ℕ, a ≤ 99 →
    decode ((1000 + a : ℕ) : Value) = .read (.address a) ∧
    decode ((1100 + a : ℕ) : Value) = .write (.address a) ∧
    decode ((2000 + a : ℕ) : Value) = .load (.address a) ∧
    decode ((2100 + a : ℕ) : Value) = .store (.address a) ∧
    decode ((3000 + a : ℕ) : Value) = .add (.address a) ∧
    decode ((3100 + a : ℕ) : Value) = .sub (.address a) ∧
    decode ((3200 + a : ℕ) : Value) = .mul (.address a) ∧
    decode ((3300 + a : ℕ) : Value) = .div (.address a) ∧
    decode ((4000 + a : ℕ) : Value) = .branch (.address a) ∧
    decode ((4100 + a : ℕ) : Value) = .branchNeg (.address a) ∧
    decode ((4200 + a : ℕ) : Value) = .branchZero (.address a) ∧
    decode ((4300 + a : ℕ) : Value) = .halt (.address a))

/-- R53: a word whose opcode is outside the recognised set is unrecognised and halts exactly as HALT does, with
no fault, no report and no other effect; the all-zero word is one. -/
def Obligations.OpcodesOutsideTheSetHalt : Prop :=
  (∀ (w : Value) (s : State), (∀ c ∈ recognisedOpcodes, opc w ≠ some (c : ℤ)) →
    decode w = .unrecognised w ∧
    exec (decode w) s = .next { s with rs := .halted, pc := s.pc + 1 } ∧
    ∀ o, exec (decode w) s = exec (.halt o) s) ∧
  (∀ c ∈ recognisedOpcodes, opc 0 ≠ some (c : ℤ))

/-- R49 and R51: a negative integer word takes the truncating decode (the spec's decision D9), a word of 10000
or more the formulas of R48 (derived there); both are unrecognised. -/
def Obligations.NegativeAndLargeWordsAreUnrecognised : Prop :=
  (∀ n : ℕ, 0 < n → opc (-(n : Value)) = some (-((n / 100 : ℕ) : ℤ)) ∧
    opd (-(n : Value)) = some (-((n % 100 : ℕ) : ℤ)) ∧
    decode (-(n : Value)) = .unrecognised (-(n : Value))) ∧
  (∀ n : ℕ, 10000 ≤ n → opc (n : Value) = some ((n / 100 : ℕ) : ℤ) ∧
    decode (n : Value) = .unrecognised (n : Value))

/-- R50 (the spec's decision D10): a word that is no integer has opcode `trunc(w/100)` and no operand. It halts
when the opcode is 43 or unrecognised, and raises AddressFault before any other effect when it is any other of
the set, a branch that would not be taken included. What that fault leaves is the spec's decisions D5, D11, D12 and
D15 (entry 7; R61, R63, R89). -/
def Obligations.NonIntegerWordsFaultOrHalt : Prop :=
  ∀ (w : Value) (s : State), w.den ≠ 1 →
    opc w = some (trunc (w / 100)) ∧ opd w = none ∧
    (trunc (w / 100) = 43 → exec (decode w) s = .next { s with rs := .halted, pc := s.pc + 1 }) ∧
    ((∀ c ∈ recognisedOpcodes, trunc (w / 100) ≠ (c : ℤ)) →
      exec (decode w) s = .next { s with rs := .halted, pc := s.pc + 1 }) ∧
    (∀ c ∈ recognisedOpcodes, c ≠ 43 → trunc (w / 100) = (c : ℤ) →
      exec (decode w) s = .next (s.afterFault .addressFault))

/-- Decoding the word of a well-formed instruction gives the instruction back, for every instruction and every
operand the encoding admits. That HALT and the unrecognised case keep their word is the model's choice (entry 10). -/
def Obligations.DecodeOfEncode : Prop := ∀ i : Instr, i.wf = true → decode (encode i) = i

/-- Every word decodes to a well-formed instruction, and encoding that gives the word back (entry 10): no word
has two meanings and none has no meaning. -/
def Obligations.EncodeOfDecode : Prop := ∀ w : Value, (decode w).wf = true ∧ encode (decode w) = w

/-- NUM_Q meets the laws that R8 puts on the numerics themselves: L1 on words below 10000, L2, L3, and that the
operations are the exact ones, which holds L6 (the source's 5 + 3 = 8). -/
def Obligations.NumQMeetsTheLaws : Prop :=
  (∀ n : ℤ, 0 ≤ n → n < 10000 → numQ.opc (numQ.ofInt n) = some (n / 100) ∧
    numQ.opd (numQ.ofInt n) = some (n % 100) ∧ n / 100 * 100 + n % 100 = n) ∧
  (∀ v : Value, (numQ.isZero v = true ↔ v = numQ.zero) ∧ (numQ.isNeg v = true ↔ v < 0) ∧
    ¬(numQ.isZero v = true ∧ numQ.isNeg v = true)) ∧
  (∀ a b : Value, numQ.add a b = a + b ∧ numQ.sub a b = a - b ∧ numQ.mul a b = a * b ∧
    (b ≠ 0 → numQ.mul (numQ.div a b) b = a)) ∧
  numQ.add (numQ.ofInt 5) (numQ.ofInt 3) = numQ.ofInt 8

/-! ## Memory -/

/-- A cell reads as what was last written to it, every other cell as before, and the array keeps its length and
its canonical form (R35, R37, R39; the form is the model's, entry 2). -/
def Obligations.MemoryReadsTheLastWrite : Prop :=
  ∀ (m m' : Memory) (a : ℕ) (v : Value), m.wf → memWrite m a v = some m' →
    memRead m' a = some v ∧ (∀ b, b ≠ a → memRead m' b = memRead m b) ∧
    m'.capacity = m.capacity ∧ m'.wf

/-- Two memories in canonical form that read alike are the same data (the form is the model's, entry 2). -/
def Obligations.CanonicalMemoriesReadingAlikeAreEqual : Prop :=
  ∀ m m' : Memory, m.wf → m'.wf → m.capacity = m'.capacity → (∀ a, m.get a = m'.get a) → m = m'

/-- The two primitives reach the cell at an address below the capacity and no other (R35); an access at an address
that is no integer in `0 <= a < CAPACITY` raises AddressFault and does nothing else, in each of the eight instructions
that use their operand as a cell address. What that fault leaves is the spec's own decision: READ keeps the token on
offer (D12: R63, R66), `pc` keeps the fetch's increment (D11), and the fault is recorded and reported (D5, D15). -/
def Obligations.AccessOutsideMemoryFaults : Prop :=
  (∀ (m : Memory) (a : ℕ) (v : Value),
    (a < m.capacity → memRead m a = some (m.get a) ∧ memWrite m a v = some (m.set a v)) ∧
    (m.capacity ≤ a → memRead m a = none ∧ memWrite m a v = none)) ∧
  ∀ (o : Operand) (s : State), namesNoCell o s.mem →
    exec (.read o) s = .next (s.afterFault .addressFault) ∧
    exec (.write o) s = .next (s.afterFault .addressFault) ∧
    exec (.load o) s = .next (s.afterFault .addressFault) ∧
    exec (.store o) s = .next (s.afterFault .addressFault) ∧
    exec (.add o) s = .next (s.afterFault .addressFault) ∧
    exec (.sub o) s = .next (s.afterFault .addressFault) ∧
    exec (.mul o) s = .next (s.afterFault .addressFault) ∧
    exec (.div o) s = .next (s.afterFault .addressFault)

/-! ## Input and output -/

/-- READ with a number on offer stores it exactly in its cell and takes the token; every other cell and
everything else but `pc` is as before (R66). -/
def Obligations.ReadStoresTheNumberOffered : Prop :=
  ∀ (s : State) (a : ℕ) (v : Value) (rest : List Token), s.mem.wf → a < s.mem.capacity →
    s.inputs = .num v :: rest →
    ∃ m, exec (.read (.address a)) s = .next { s with mem := m, pc := s.pc + 1, inputs := rest } ∧
      m.capacity = s.mem.capacity ∧ m.get a = v ∧ ∀ b, b ≠ a → m.get b = s.mem.get b

/-- R85: a malformed token stores zero in READ's cell, warns on the diagnostic channel, and the run goes on: no
fault, the run state as before, the token consumed; every other cell is as before. -/
def Obligations.MalformedInputStoresZeroAndWarns : Prop :=
  ∀ (s : State) (a : ℕ) (rest : List Token), s.mem.wf → a < s.mem.capacity →
    s.inputs = .malformed :: rest →
    ∃ m, exec (.read (.address a)) s = .next { s with
        mem := m
        pc := s.pc + 1
        inputs := rest
        diag := s.diag ++ [.warnMalformedInput s.pc] } ∧
      m.capacity = s.mem.capacity ∧ m.get a = 0 ∧ ∀ b, b ≠ a → m.get b = s.mem.get b

/-- READ with a valid operand and no token on offer leaves the state as it is, for as many steps as the host stays
silent, and an offered token lifts the wait (R67; the spec's decision D20). R59 and R67 say that the step has not
happened: that the model's step answers, and answers the unchanged state, so that a run of any length is at the same
state, is its choice (entry 14, DESIGN CHOICE), and so is the list the host adds a token to (entry 4). -/
def Obligations.ReadWaitsForAToken : Prop :=
  ∀ s : State, s.waiting →
    (∀ n, core.run n s = .next s) ∧
    ∀ t, ∃ u, step (s.offer t) = .next u ∧ u.inputs = [] ∧ u.pc = s.pc + 1 ∧ u.rs = .running

/-- WRITE emits the cell's value and changes nothing else but `pc` (R68); where its operand names no cell it faults and
emits nothing. What that fault leaves besides (`pc` past the instruction, the record, the report, nothing else changed)
is the spec's own decision (D5, D11, D12, D15; entry 7; R61, R63, R89). -/
def Obligations.WriteEmitsTheCell : Prop :=
  ∀ s : State,
    (∀ a, a < s.mem.capacity →
      exec (.write (.address a)) s =
        .next { s with out := s.out ++ [s.mem.get a], pc := s.pc + 1 }) ∧
    (∀ o, namesNoCell o s.mem → exec (.write o) s = .next (s.afterFault .addressFault) ∧
      (s.afterFault .addressFault).out = s.out)

/-! ## Load and store -/

/-- LOAD copies the cell into the accumulator and changes nothing else but `pc` (R69); where its operand names no
cell it faults and the accumulator keeps its value. What that fault leaves besides (`pc` past the instruction, the
record, the report, nothing else changed) is the spec's own decision (D5, D11, D12, D15; entry 7; R61, R63, R89). -/
def Obligations.LoadCopiesTheCellIntoAcc : Prop :=
  ∀ s : State,
    (∀ a, a < s.mem.capacity →
      exec (.load (.address a)) s = .next { s with acc := s.mem.get a, pc := s.pc + 1 }) ∧
    (∀ o, namesNoCell o s.mem → exec (.load o) s = .next (s.afterFault .addressFault) ∧
      (s.afterFault .addressFault).acc = s.acc)

/-- STORE copies the accumulator into the cell, every other cell and everything else but `pc` is as before;
where its operand names no cell it faults and memory is unchanged (R70). What that fault leaves besides (`pc` past the
instruction, the record, the report, nothing else changed) is the spec's own decision (D5, D11, D12, D15; entry 7; R61,
R63, R89). -/
def Obligations.StoreCopiesAccIntoTheCell : Prop :=
  ∀ s : State, s.mem.wf →
    (∀ a, a < s.mem.capacity →
      ∃ m, exec (.store (.address a)) s = .next { s with mem := m, pc := s.pc + 1 } ∧
        m.capacity = s.mem.capacity ∧ m.get a = s.acc ∧ ∀ b, b ≠ a → m.get b = s.mem.get b) ∧
    (∀ o, namesNoCell o s.mem → exec (.store o) s = .next (s.afterFault .addressFault) ∧
      (s.afterFault .addressFault).mem = s.mem)

/-- LOAD then STORE at the same cell leaves memory as it was and the accumulator at the cell's value; STORE then
LOAD leaves the accumulator as it was (R70's corner cases, the second derived there; R8 L4). -/
def Obligations.LoadThenStoreIsANoOp : Prop :=
  ∀ (s : State) (a : ℕ), s.mem.wf → a < s.mem.capacity →
    (∃ t, exec (.load (.address a)) s = .next t ∧
      exec (.store (.address a)) t = .next { s with acc := s.mem.get a, pc := s.pc + 2 }) ∧
    (∃ t u, exec (.store (.address a)) s = .next t ∧ exec (.load (.address a)) t = .next u ∧
      u.acc = s.acc ∧ u.mem.get a = s.acc)

/-- A word stored at the next address is what the next step fetches and runs (R42, derived from R39). -/
def Obligations.StoredWordIsFetchedNext : Prop :=
  ∀ (s : State) (w : Value), s.mem.wf → s.rs = .running → fetch s = some w →
    decode w = .store (.address (s.pc + 1)) → s.pc + 1 < s.mem.capacity →
    ∃ t, step s = .next t ∧ t.rs = .running ∧ t.pc = s.pc + 1 ∧ step t = exec (decode s.acc) t

/-! ## Arithmetic -/

/-- ADD adds the cell to the accumulator and changes nothing else but `pc` (R72); where its operand names no cell
it faults and the accumulator is unchanged. What that fault leaves besides (`pc` past the instruction, the record, the
report, nothing else changed) is the spec's own decision (D5, D11, D12, D15; entry 7; R61, R63, R89). -/
def Obligations.AddAddsTheCell : Prop :=
  ∀ s : State,
    (∀ a, a < s.mem.capacity →
      exec (.add (.address a)) s = .next { s with acc := s.acc + s.mem.get a, pc := s.pc + 1 }) ∧
    (∀ o, namesNoCell o s.mem → exec (.add o) s = .next (s.afterFault .addressFault) ∧
      (s.afterFault .addressFault).acc = s.acc)

/-- SUB subtracts the cell from the accumulator, not the reverse, and changes nothing else but `pc` (R73); where its
operand names no cell it faults and the accumulator is unchanged. What that fault leaves besides (`pc` past the
instruction, the record, the report, nothing else changed) is the spec's own decision (D5, D11, D12, D15; entry 7;
R61, R63, R89). -/
def Obligations.SubSubtractsTheCell : Prop :=
  ∀ s : State,
    (∀ a, a < s.mem.capacity →
      exec (.sub (.address a)) s = .next { s with acc := s.acc - s.mem.get a, pc := s.pc + 1 }) ∧
    (∀ o, namesNoCell o s.mem → exec (.sub o) s = .next (s.afterFault .addressFault) ∧
      (s.afterFault .addressFault).acc = s.acc)

/-- MUL multiplies the accumulator by the cell and changes nothing else but `pc` (R74); where its operand names no cell
it faults and the accumulator is unchanged. What that fault leaves besides (`pc` past the instruction, the record, the
report, nothing else changed) is the spec's own decision (D5, D11, D12, D15; entry 7; R61, R63, R89). -/
def Obligations.MulMultipliesByTheCell : Prop :=
  ∀ s : State,
    (∀ a, a < s.mem.capacity →
      exec (.mul (.address a)) s = .next { s with acc := s.acc * s.mem.get a, pc := s.pc + 1 }) ∧
    (∀ o, namesNoCell o s.mem → exec (.mul o) s = .next (s.afterFault .addressFault) ∧
      (s.afterFault .addressFault).acc = s.acc)

/-- DIV divides the accumulator exactly by a cell that is not zero and changes nothing else but `pc` (R75). A
zero cell raises ArithmeticFault, an operand that names no cell AddressFault, which comes first; either leaves
memory and accumulator as they were. What a fault leaves besides (the report, nothing else changed, `pc` and the record
as R75 has them) is the spec's own decision (D5, D11, D12, D15; entry 7; R61, R63, R89). -/
def Obligations.DivDividesByTheCell : Prop :=
  ∀ s : State,
    (∀ a, a < s.mem.capacity → s.mem.get a ≠ 0 →
      ∃ q, exec (.div (.address a)) s = .next { s with acc := q, pc := s.pc + 1 } ∧
        q * s.mem.get a = s.acc) ∧
    (∀ a, a < s.mem.capacity → s.mem.get a = 0 →
      exec (.div (.address a)) s = .next (s.afterFault .arithmeticFault)) ∧
    (∀ o, namesNoCell o s.mem → exec (.div o) s = .next (s.afterFault .addressFault)) ∧
    ∀ k, (s.afterFault k).mem = s.mem ∧ (s.afterFault k).acc = s.acc

/-- For any sequence of ADD, SUB and MUL on cells of the memory, the accumulator at the end is the left-to-right
fold of the operations from the accumulator before, and nothing else but `pc` has changed (R71). -/
def Obligations.ArithmeticSequencesFoldLeftToRight : Prop :=
  ∀ (ops : List (FoldOp × ℕ)) (s : State), s.rs = .running → (∀ p ∈ ops, p.2 < s.mem.capacity) →
    execSeq (ops.map fun p => p.1.instr p.2) s =
      .next { s with
        acc := ops.foldl (fun x p => p.1.apply x (s.mem.get p.2)) s.acc
        pc := s.pc + ops.length }

/-! ## Control -/

/-- BRANCH puts its target in `pc`, whatever the capacity, and changes nothing else (R76). A fetch at a target outside
memory then faults with that target: that `pc` does not move and what is recorded and reported is the spec's decisions
D3, D5, D11 and D15 (entry 7; R60, R89). A non-integer operand faults at once, which is its decision D10 (R50), and what
that fault leaves D5, D11 and D15 (R61, R89). -/
def Obligations.BranchAlwaysJumps : Prop :=
  ∀ s : State,
    (∀ t, exec (.branch (.address t)) s = .next { s with pc := t }) ∧
    (∀ t, s.rs = .running → s.mem.capacity ≤ t → step { s with pc := t } = .next { s with
        pc := t
        rs := .halted
        fault := some { kind := .addressFault, at' := t }
        diag := s.diag ++ [.fault .addressFault t] }) ∧
    (∀ q, exec (.branch (.fraction q)) s = .next (s.afterFault .addressFault))

/-- BRANCHNEG jumps if and only if the accumulator is strictly negative, and changes nothing but `pc` (R77). That it
faults for a non-integer operand, taken or not, is the spec's decision D10 (R50), and what that fault leaves D5, D11 and
D15 (entry 7; R61, R89). -/
def Obligations.BranchNegJumpsIffAccNegative : Prop :=
  ∀ s : State,
    (∀ t, s.acc < 0 → exec (.branchNeg (.address t)) s = .next { s with pc := t }) ∧
    (∀ t, ¬s.acc < 0 → exec (.branchNeg (.address t)) s = .next { s with pc := s.pc + 1 }) ∧
    (∀ q, exec (.branchNeg (.fraction q)) s = .next (s.afterFault .addressFault))

/-- BRANCHZERO jumps if and only if the accumulator is exactly zero, and changes nothing but `pc` (R78). That it
faults for a non-integer operand, taken or not, is the spec's decision D10 (R50), and what that fault leaves D5, D11 and
D15 (entry 7; R61, R89). -/
def Obligations.BranchZeroJumpsIffAccZero : Prop :=
  ∀ s : State,
    (∀ t, s.acc = 0 → exec (.branchZero (.address t)) s = .next { s with pc := t }) ∧
    (∀ t, s.acc ≠ 0 → exec (.branchZero (.address t)) s = .next { s with pc := s.pc + 1 }) ∧
    (∀ q, exec (.branchZero (.fraction q)) s = .next (s.afterFault .addressFault))

/-- R79: HALT ends the run whatever its digits are, with `pc` past it, and changes nothing else. -/
def Obligations.HaltEndsTheRun : Prop :=
  ∀ (s : State) (o : Operand), exec (.halt o) s = .next { s with rs := .halted, pc := s.pc + 1 }

/-- R80: an unrecognised opcode acts exactly as HALT, with no fault and no report. -/
def Obligations.UnrecognisedActsAsHalt : Prop :=
  ∀ (s : State) (w : Value) (o : Operand),
    exec (.unrecognised w) s = .next { s with rs := .halted, pc := s.pc + 1 } ∧
    exec (.unrecognised w) s = exec (.halt o) s

/-- `BRANCH a` at address `a` runs for ever and changes nothing (R76's corner case, R104). -/
def Obligations.BranchToItselfNeverEnds : Prop :=
  ∀ (s : State) (w : Value), s.rs = .running → fetch s = some w →
    decode w = .branch (.address s.pc) → ∀ n, core.run n s = .next s

/-! ## The step -/

/-- While the engine runs and `pc` names a cell, the step is the decoded instruction on the state (R62). The
increment of the fetch is made by the meaning (entry 13), as the instructions' own statements say. -/
def Obligations.StepRunsTheDecodedInstruction : Prop :=
  ∀ s : State, s.rs = .running → s.pc < s.mem.capacity →
    step s = exec (decode (s.mem.get s.pc)) s

/-- A fetch at `pc` outside memory raises AddressFault with `pc` itself; `pc` is not incremented and nothing
else changes (R60, R102; the spec's decisions D3 and D11). Where the fault is recorded and reported is its decisions D5
and D15 (R89). -/
def Obligations.FetchOutsideMemoryFaults : Prop :=
  ∀ s : State, s.rs = .running → s.mem.capacity ≤ s.pc →
    step s = .next { s with
      rs := .halted
      fault := some { kind := .addressFault, at' := s.pc }
      diag := s.diag ++ [.fault .addressFault s.pc] }

/-- No instruction and no step stops the machine: each has a next state. The spec gives every word an effect (R53;
93_implementation_defined.md U13). It says that steps happen only while Running (R59) and none in Halted (R65): that the
model's step answers in Ready and Halted too, where it is the host's turn, is the model's choice (entry 1, DESIGN
CHOICE). That the spec's two faults are next states, so that no step ends in a fault or a refusal, is the model's reading
(entry 12, DEDUCED). That a waiting READ, whose step the spec says has not happened yet (R59, R67), answers the unchanged
state as its next state is the model's choice (entry 14, DESIGN CHOICE). -/
def Obligations.EveryStepHasANextState : Prop :=
  (∀ i s, ∃ t, exec i s = .next t) ∧ ∀ s, ∃ t, step s = .next t

/-- R20, the transitions of the run state: a step of a running engine stays Running, or ends the run by a fault,
or normally and then by HALT or an unrecognised opcode; outside a run only `start` and `reset` change it. That
the host's acts reach the step as a list is the model's choice (entry 1). -/
def Obligations.RunStateTransitions : Prop :=
  (∀ s t : State, s.rs = .running → s.fault = none → step s = .next t →
    (t.rs = .running ∧ t.fault = none) ∨ t.endedByFault ∨
    (t.endedNormally ∧ ∃ w, fetch s = some w ∧
      ((∃ o, decode w = .halt o) ∨ ∃ v, decode w = .unrecognised v))) ∧
  (∀ s t : State, s.rs ≠ .running → step s = .next t →
    t.rs = s.rs ∨ (t.rs = .ready ∧ s.commands.head? = some .reset) ∨
    (t.rs = .running ∧ s.commands.head? = some .start))

/-- The array is zero-filled at initialization and never resized; during a run a cell changes only by STORE and READ at
that cell, and outside a run only by the host's write and by `reset`, which fills it with zeros (R14, R31, R66, R70,
R96). That the host's acts reach the step as a list, of which the step performs the head, is the model's choice (entry 1,
DESIGN CHOICE), and so is the list of tokens (entry 4). -/
def Obligations.OnlyReadStoreAndTheHostWriteMemory : Prop :=
  (∀ a, State.reset.mem.get a = 0) ∧
  ∀ s t : State, s.mem.wf → step s = .next t →
    t.mem.capacity = s.mem.capacity ∧
    ∀ b, t.mem.get b ≠ s.mem.get b →
      (s.rs = .running ∧ b < s.mem.capacity ∧ ∃ w, fetch s = some w ∧
        ((decode w = .store (.address b) ∧ t.mem.get b = s.acc) ∨
         (decode w = .read (.address b) ∧ ∃ tok rest, s.inputs = tok :: rest ∧
           t.mem.get b = match tok with | .num v => v | .malformed => 0))) ∨
      (s.rs ≠ .running ∧
        ((b < s.mem.capacity ∧ s.commands.head? = some (.write b (t.mem.get b))) ∨
         (s.commands.head? = some .reset ∧ t.mem.get b = 0)))

/-- During a run only LOAD, ADD, SUB, MUL and DIV write the accumulator, READ does not; outside a run only the
host's `host_set_acc` and `reset` do, `start` does not (R15, R31; the last is the spec's decision D8). That the host's
acts reach the step as a list, of which the step performs the head, is the model's choice (entry 1, DESIGN CHOICE). -/
def Obligations.OnlyLoadAndArithmeticWriteAcc : Prop :=
  ∀ s t : State, step s = .next t → t.acc ≠ s.acc →
    (s.rs = .running ∧ ∃ w a, fetch s = some w ∧ a < s.mem.capacity ∧
      (decode w = .load (.address a) ∨ decode w = .add (.address a) ∨ decode w = .sub (.address a) ∨
       decode w = .mul (.address a) ∨ decode w = .div (.address a))) ∨
    (s.rs ≠ .running ∧ (s.commands.head? = some (.setAcc t.acc) ∨
      (s.commands.head? = some .reset ∧ t.acc = 0)))

/-- Every instruction leaves `pc` one past its address, but for a branch, which may put its operand there, and
for a READ that waits, which changes nothing (R17, R61, R67; at a fault the spec's decision D11). That the waiting READ
answers the unchanged state is the model's choice (entry 14, DESIGN CHOICE). -/
def Obligations.PcIsIncrementedUnlessABranchIsTaken : Prop :=
  ∀ (i : Instr) (s t : State), exec i s = .next t →
    t.pc = s.pc + 1 ∨
    (∃ n, (i = .branch (.address n) ∨ i = .branchNeg (.address n) ∨ i = .branchZero (.address n)) ∧
      t.pc = n) ∨
    (∃ o, i = .read o ∧ s.inputs = [] ∧ t = s)

/-- READ alone takes input, one token from the front; WRITE alone emits output, one value; no instruction
touches what the host still has to do or what it was answered (R29, R37; the last two are the model's, entries 1
and 5). -/
def Obligations.OnlyReadTakesInputAndOnlyWriteEmits : Prop :=
  ∀ (i : Instr) (s t : State), exec i s = .next t →
    (t.inputs = s.inputs ∨ ∃ a tok, i = .read (.address a) ∧ s.inputs = tok :: t.inputs) ∧
    (t.out = s.out ∨ ∃ a, i = .write (.address a) ∧ a < s.mem.capacity ∧
      t.out = s.out ++ [s.mem.get a]) ∧
    t.commands = s.commands ∧ t.replies = s.replies

/-- An instruction never reads the fault status, the records, or what the host still has to do: from states that
agree on memory, accumulator, `pc`, run state and tokens it makes states that agree on them, with the same
additions to the records and the same new fault, if any (R21, R23). -/
def Obligations.InstructionsReadOnlyTheArchitecturalInputs : Prop :=
  ∀ (i : Instr) (s t : State) (f : Option FaultRecord) (o : List Value) (d : List DiagEvent)
    (c : List HostCommand) (r : List HostReply), exec i s = .next t →
    ∃ u, exec i { s with fault := f, out := o, diag := d, commands := c, replies := r } = .next u ∧
      u.mem = t.mem ∧ u.acc = t.acc ∧ u.pc = t.pc ∧ u.rs = t.rs ∧ u.inputs = t.inputs ∧
      (u.fault = t.fault ∨ t.fault = s.fault ∧ u.fault = f) ∧
      (∃ os, t.out = s.out ++ os ∧ u.out = o ++ os) ∧ ∃ ds, t.diag = s.diag ++ ds ∧ u.diag = d ++ ds

/-! ## Faults -/

/-- A fault is precise: the faulting instruction leaves exactly the fault entry of R89 and nothing of its own
effect (R63, R90; the spec's decisions D5, D11, D12 and D15). -/
def Obligations.FaultsArePrecise : Prop :=
  ∀ (i : Instr) (s t : State) (f : FaultRecord), s.fault = none → exec i s = .next t →
    t.fault = some f → t = s.afterFault f.kind

/-- DIV raises ArithmeticFault, at its own address, exactly when its divisor cell is zero, whatever the
accumulator holds; no other instruction ever does; memory and accumulator keep their values (R84). What the fault
leaves besides (`pc` past the DIV, the report, nothing else changed) is the spec's own decision (D5, D11, D12, D15; entry
7; R61, R63, R89). -/
def Obligations.ArithmeticFaultExactlyOnZeroDivisor : Prop :=
  ∀ (i : Instr) (s t : State), s.fault = none → exec i s = .next t →
    ((∃ p, t.fault = some { kind := .arithmeticFault, at' := p }) ↔
      ∃ a, i = .div (.address a) ∧ a < s.mem.capacity ∧ s.mem.get a = 0) ∧
    ((∃ p, t.fault = some { kind := .arithmeticFault, at' := p }) →
      t = s.afterFault .arithmeticFault ∧ t.mem = s.mem ∧ t.acc = s.acc)

/-- Which instructions raise AddressFault: the eight that use their operand as a cell address when it names no
cell, and the three branches only for a non-integer operand (D10); HALT and the unrecognised opcode never (R83; the
spec's decisions D5 and D10). -/
def Obligations.AddressFaultCauses : Prop :=
  ∀ (i : Instr) (s t : State), s.fault = none → exec i s = .next t →
    ((∃ p, t.fault = some { kind := .addressFault, at' := p }) ↔
      (∃ o, namesNoCell o s.mem ∧ (i = .read o ∨ i = .write o ∨ i = .load o ∨ i = .store o ∨
        i = .add o ∨ i = .sub o ∨ i = .mul o ∨ i = .div o)) ∨
      ∃ q, i = .branch (.fraction q) ∨ i = .branchNeg (.fraction q) ∨ i = .branchZero (.fraction q))

/-! ## Reset, start and the host -/

/-- The state after reset (R25, R96; `pc`, `rs`, `fault` and the records by the spec's decision D4): a hundred
cells, every one zero. -/
def Obligations.ResetLeavesTheStatedValues : Prop :=
  State.reset.mem.capacity = 100 ∧ (∀ a, a < 100 → memRead State.reset.mem a = some 0) ∧
  State.reset.acc = 0 ∧ State.reset.pc = 0 ∧ State.reset.rs = .ready ∧ State.reset.fault = none ∧
  State.reset.out = [] ∧ State.reset.diag = []

/-- The host's `reset` and `start`, outside a run (R96, R98; the spec's decisions D4, D5, D8). Four clauses are the
model's choices (DESIGN CHOICE), not the spec's: that the events come from a list of pending acts (entry 1), that
`reset` keeps the tokens on offer (entry 4) and the record of replies (entry 5), and that `start` keeps the records of
output and diagnostics (entry 8). -/
def Obligations.ResetAndStartEvents : Prop :=
  ∀ (s : State) (rest : List HostCommand), s.rs ≠ .running →
    (s.commands = .reset :: rest → ∃ t, step s = .next t ∧ t.mem.capacity = s.mem.capacity ∧
      (∀ a, t.mem.get a = 0) ∧ t.acc = 0 ∧ t.pc = 0 ∧ t.rs = .ready ∧ t.fault = none ∧
      t.out = [] ∧ t.diag = [] ∧ t.inputs = s.inputs ∧ t.commands = rest ∧ t.replies = s.replies) ∧
    (s.commands = .start :: rest →
      step s = .next { s with pc := 0, rs := .running, fault := none, commands := rest })

/-- The host's access operations, outside a run (R31; the spec's decision D6): a write inside memory sets that
cell and nothing else, a read returns the cell, an integer address outside memory, be it below zero or CAPACITY and
above, is refused with no effect; accumulator and `pc` are got and set. That what was returned goes on a record of
replies, and that acts come from a list, is the model's choice (entries 5 and 1). -/
def Obligations.HostAccessOperations : Prop :=
  ∀ (s : State) (rest : List HostCommand), s.rs ≠ .running → s.mem.wf →
    (∀ (a : ℕ) (v : Value), s.commands = .write a v :: rest → a < s.mem.capacity →
      ∃ m, step s = .next { s with mem := m, commands := rest } ∧ m.capacity = s.mem.capacity ∧
        m.get a = v ∧ ∀ b, b ≠ a → m.get b = s.mem.get b) ∧
    (∀ (a : ℤ) (v : Value), s.commands = .write a v :: rest → (a < 0 ∨ s.mem.capacity ≤ a) →
      step s = .next { s with commands := rest, replies := s.replies ++ [.refused] }) ∧
    (∀ a : ℕ, s.commands = .read a :: rest → a < s.mem.capacity →
      step s = .next { s with commands := rest, replies := s.replies ++ [.value (s.mem.get a)] }) ∧
    (∀ a : ℤ, s.commands = .read a :: rest → (a < 0 ∨ s.mem.capacity ≤ a) →
      step s = .next { s with commands := rest, replies := s.replies ++ [.refused] }) ∧
    (s.commands = .getAcc :: rest →
      step s = .next { s with commands := rest, replies := s.replies ++ [.value s.acc] }) ∧
    (∀ v, s.commands = .setAcc v :: rest →
      step s = .next { s with acc := v, commands := rest }) ∧
    (s.commands = .getPc :: rest →
      step s = .next { s with commands := rest, replies := s.replies ++ [.count s.pc] }) ∧
    (∀ n, s.commands = .setPc n :: rest →
      step s = .next { s with pc := n, commands := rest })

/-- While the engine runs the host has no move: what it still has to do stays pending and has no effect on the
step (R30; the spec's decision D7; entry 1). In Ready and Halted the engine takes no step
(R59, R65): that the model's step answers there, and with nothing pending answers the unchanged state, is its choice
(entry 1, DESIGN CHOICE). -/
def Obligations.HostAndEngineTakeTurns : Prop :=
  (∀ (s t : State) (c : List HostCommand), s.rs = .running → step s = .next t →
    step { s with commands := c } = .next { t with commands := c } ∧ t.commands = s.commands) ∧
  (∀ s : State, s.rs ≠ .running → s.commands = [] → step s = .next s)

/-! ## The invariant -/

/-- The state after reset meets the invariant. -/
def Obligations.ResetMeetsTheInvariant : Prop := State.reset.Inv

/-- Every step keeps the invariant, from every state that meets it, and so does the host offering a token: memory
keeps its canonical form (the model's, entry 2); while the engine runs `pc` lies in 0 .. max(CAPACITY, 99) (R17); a fault
on record has ended its run and was the last event reported (R22, R89; the spec's decisions D5 and D15). The host's
acts and tokens are lists by the model's choice (entries 1 and 4). -/
def Obligations.StepKeepsTheInvariant : Prop :=
  (∀ s t : State, s.Inv → step s = .next t → t.Inv) ∧
  ∀ (s : State) (tok : Token), s.Inv → (s.offer tok).Inv

/-! ## Over any numerics

`NUM` is an argument of the machine (00_scope.md R7, the spec's decision D1), and "a claim that must survive" another
numerics "is stated over the NUM parameter" (D1). That the carrier is a type argument with decidable equality and
NUM_Q's machine a set of definitions at that argument is the model's choice (entry 15). -/

/-- The hardware is the machine over any numerics taken at NUM_Q, with 100 cells (R6, R7, R9), and NUM_Q, whose values
represent themselves, is lawful (R8, R9; how the laws are said is entry 15). -/
def Obligations.TheHardwareIsTheMachineAtNumQ : Prop :=
  (∀ i s, exec i s = execWith numQ i s) ∧ (∀ s, step s = stepWith numQ s) ∧
  (∀ w, decode w = decodeWith numQ w) ∧ (∀ i, encode i = encodeWith numQ i) ∧
  State.reset = State.resetWith 100 numQ ∧ numQ.Lawful fun q => some ((q : ℝ) : EReal)

/-- Over any numerics that meet L1 of R8, the word of an instruction with a two-digit operand decodes to it, and an
integer word below 10000 whose opcode is outside the set is unrecognised (R48, R52, R53). -/
def Obligations.DecodeOfEncodeOverAnyNumerics : Prop :=
  ∀ (V : Type) (N : Numerics V), N.DecodesWords →
    (∀ a : ℕ, a < 100 → ∀ i ∈ [Instr.read (.address a), .write (.address a), .load (.address a),
        .store (.address a), .add (.address a), .sub (.address a), .mul (.address a), .div (.address a),
        .branch (.address a), .branchNeg (.address a), .branchZero (.address a), .halt (.address a)],
      decodeWith N (encodeWith N i) = i) ∧
    (∀ n : ℕ, n < 10000 → n / 100 ∉ recognisedOpcodes →
      decodeWith N (N.ofInt n) = .unrecognised (N.ofInt n))

/-- Over any numerics, a word without an opcode (R50: a value that is not finite) or with an opcode outside the set
halts as HALT does; a word of the set with no integer operand halts when its opcode is 43 and raises AddressFault
before any other effect otherwise (R50, R53; the spec's decision D10). What the fault leaves is its decisions D5, D11,
D12 and D15. -/
def Obligations.WordsWithoutOpcodeOrOperandOverAnyNumerics : Prop :=
  ∀ (V : Type) [DecidableEq V] (N : Numerics V) (w : V) (s : State V),
    ((∀ c ∈ recognisedOpcodes, N.opc w ≠ some (c : ℤ)) →
      execWith N (decodeWith N w) s = .next { s with rs := .halted, pc := s.pc + 1 }) ∧
    (N.opc w = some 43 →
      execWith N (decodeWith N w) s = .next { s with rs := .halted, pc := s.pc + 1 }) ∧
    (∀ c ∈ recognisedOpcodes, c ≠ 43 → N.opc w = some (c : ℤ) → N.opd w = none →
      execWith N (decodeWith N w) s = .next (s.afterFault .addressFault))

/-- Over any numerics, what each instruction leaves, in terms of `zero`, `add`, `sub`, `mul`, `div`, `isZero` and
`isNeg` of R7 (R66 to R80): everything not named is as before. That a branch faults for a non-integer operand is the
spec's decision D10, and what a fault leaves is D5, D11, D12 and D15; that a READ with no token on offer answers the
unchanged state is the model's choice (entry 14). -/
def Obligations.InstructionsOverAnyNumerics : Prop :=
  ∀ (V : Type) [DecidableEq V] (N : Numerics V) (s : State V), s.mem.wfWith N →
    (∀ a, a < s.mem.capacity →
      execWith N (.write (.address a)) s =
        .next { s with out := s.out ++ [s.mem.getWith N a], pc := s.pc + 1 } ∧
      execWith N (.load (.address a)) s = .next { s with acc := s.mem.getWith N a, pc := s.pc + 1 } ∧
      execWith N (.add (.address a)) s =
        .next { s with acc := N.add s.acc (s.mem.getWith N a), pc := s.pc + 1 } ∧
      execWith N (.sub (.address a)) s =
        .next { s with acc := N.sub s.acc (s.mem.getWith N a), pc := s.pc + 1 } ∧
      execWith N (.mul (.address a)) s =
        .next { s with acc := N.mul s.acc (s.mem.getWith N a), pc := s.pc + 1 } ∧
      (N.isZero (s.mem.getWith N a) = false → execWith N (.div (.address a)) s =
        .next { s with acc := N.div s.acc (s.mem.getWith N a), pc := s.pc + 1 }) ∧
      (N.isZero (s.mem.getWith N a) = true →
        execWith N (.div (.address a)) s = .next (s.afterFault .arithmeticFault)) ∧
      (∃ m, execWith N (.store (.address a)) s = .next { s with mem := m, pc := s.pc + 1 } ∧
        m.capacity = s.mem.capacity ∧ m.getWith N a = s.acc ∧
        ∀ b, b ≠ a → m.getWith N b = s.mem.getWith N b) ∧
      (∀ v rest, s.inputs = .num v :: rest →
        ∃ m, execWith N (.read (.address a)) s =
            .next { s with mem := m, pc := s.pc + 1, inputs := rest } ∧
          m.capacity = s.mem.capacity ∧ m.getWith N a = v ∧
          ∀ b, b ≠ a → m.getWith N b = s.mem.getWith N b) ∧
      (∀ rest, s.inputs = .malformed :: rest →
        ∃ m, execWith N (.read (.address a)) s = .next { s with
            mem := m
            pc := s.pc + 1
            inputs := rest
            diag := s.diag ++ [.warnMalformedInput s.pc] } ∧
          m.capacity = s.mem.capacity ∧ m.getWith N a = N.zero ∧
          ∀ b, b ≠ a → m.getWith N b = s.mem.getWith N b) ∧
      (s.inputs = [] → execWith N (.read (.address a)) s = .next s)) ∧
    (∀ o, namesNoCell o s.mem → ∀ i ∈ [Instr.read o, .write o, .load o, .store o, .add o, .sub o, .mul o, .div o],
      execWith N i s = .next (s.afterFault .addressFault)) ∧
    (∀ t, execWith N (.branch (.address t)) s = .next { s with pc := t } ∧
      execWith N (.branchNeg (.address t)) s =
        .next { s with pc := if N.isNeg s.acc then t else s.pc + 1 } ∧
      execWith N (.branchZero (.address t)) s =
        .next { s with pc := if N.isZero s.acc then t else s.pc + 1 }) ∧
    (∀ q, ∀ i ∈ [Instr.branch (.fraction q), .branchNeg (.fraction q), .branchZero (.fraction q)],
      execWith N i s = .next (s.afterFault .addressFault)) ∧
    (∀ o, execWith N (.halt o) s = .next { s with rs := .halted, pc := s.pc + 1 }) ∧
    (∀ w, execWith N (.unrecognised w) s = .next { s with rs := .halted, pc := s.pc + 1 })

/-- Over any numerics, the step of a running engine is the decoded instruction, or the fetch's AddressFault at `pc`,
which is not incremented (R60, R62, R102; the spec's decisions D3, D5, D11, D15). -/
def Obligations.StepOverAnyNumerics : Prop :=
  ∀ (V : Type) [DecidableEq V] (N : Numerics V) (s : State V), s.rs = .running →
    (s.pc < s.mem.capacity →
      stepWith N s = execWith N (decodeWith N (s.mem.getWith N s.pc)) s) ∧
    (s.mem.capacity ≤ s.pc → stepWith N s = .next { s with
      rs := .halted
      fault := some { kind := .addressFault, at' := s.pc }
      diag := s.diag ++ [.fault .addressFault s.pc] })

/-- Over any numerics, no instruction and no step stops the machine. As over NUM_Q, that a step answers in Ready and
Halted, where the spec has no step (R59, R65), as the host's turn, is the model's choice (entry 1, DESIGN CHOICE), that
the spec's faults are next states its reading (entry 12, DEDUCED), and that a waiting READ answers the unchanged state
its choice (entry 14, DESIGN CHOICE). -/
def Obligations.EveryStepHasANextStateOverAnyNumerics : Prop :=
  ∀ (V : Type) [DecidableEq V] (N : Numerics V),
    (∀ i s, ∃ t, execWith N i s = .next t) ∧ ∀ s, ∃ t, stepWith N s = .next t

/-- Law L4 of R8, over any numerics: LOAD then STORE at one cell leaves memory as it was and the accumulator at the
cell's value; STORE then LOAD leaves the accumulator as it was. -/
def Obligations.LoadThenStoreIsANoOpOverAnyNumerics : Prop :=
  ∀ (V : Type) [DecidableEq V] (N : Numerics V) (s : State V) (a : ℕ),
    s.mem.wfWith N → a < s.mem.capacity →
    (∃ t, execWith N (.load (.address a)) s = .next t ∧
      execWith N (.store (.address a)) t =
        .next { s with acc := s.mem.getWith N a, pc := s.pc + 2 }) ∧
    (∃ t u, execWith N (.store (.address a)) s = .next t ∧
      execWith N (.load (.address a)) t = .next u ∧ u.acc = s.acc ∧ u.mem.getWith N a = s.acc)

/-- Law L5 of R8, over any numerics: a sequence of ADD, SUB and MUL on cells of the memory leaves in the accumulator
the left-to-right fold of the operations, and nothing else but `pc` has changed (R71). -/
def Obligations.ArithmeticSequencesFoldOverAnyNumerics : Prop :=
  ∀ (V : Type) [DecidableEq V] (N : Numerics V) (ops : List (FoldOp × ℕ)) (s : State V),
    s.rs = .running → (∀ p ∈ ops, p.2 < s.mem.capacity) →
    runInstrs (execWith N) (ops.map fun p => p.1.instr p.2) s =
      .next { s with
        acc := ops.foldl (fun x p => p.1.applyWith N x (s.mem.getWith N p.2)) s.acc
        pc := s.pc + ops.length }

/-- Over any numerics, every step keeps the canonical form of memory (the model's, entry 2) and the array's length
(R14), the host's turn included, which is a step by the model's choice (entry 1, DESIGN CHOICE). -/
def Obligations.StepKeepsMemoryCanonicalOverAnyNumerics : Prop :=
  ∀ (V : Type) [DecidableEq V] (N : Numerics V) (s t : State V), s.mem.wfWith N →
    stepWith N s = .next t → t.mem.wfWith N ∧ t.mem.capacity = s.mem.capacity

/-- Over any lawful numerics, what L2 and L3 of R8 make of the instructions that test a value, `val v` being the
number `v` represents: BRANCHNEG jumps if and only if the accumulator is strictly negative (R77), BRANCHZERO if and
only if it is zero (R78), DIV faults if and only if the cell is zero (R75). `zero` is zero and not negative, and an
integer of one word is zero or negative as it says. How the laws are said is the model's choice (entry 15); what a
fault leaves is the spec's decisions D5, D11, D12 and D15. -/
def Obligations.TestsFollowTheValueOverLawfulNumerics : Prop :=
  ∀ (V : Type) [DecidableEq V] (N : Numerics V) (val : V → Option EReal) (s : State V), N.Lawful val →
    (∀ t, (∃ x, val s.acc = some x ∧ x < 0) →
      execWith N (.branchNeg (.address t)) s = .next { s with pc := t }) ∧
    (∀ t, (¬∃ x, val s.acc = some x ∧ x < 0) →
      execWith N (.branchNeg (.address t)) s = .next { s with pc := s.pc + 1 }) ∧
    (∀ t, val s.acc = some 0 → execWith N (.branchZero (.address t)) s = .next { s with pc := t }) ∧
    (∀ t, val s.acc ≠ some 0 →
      execWith N (.branchZero (.address t)) s = .next { s with pc := s.pc + 1 }) ∧
    (∀ a, a < s.mem.capacity → val (s.mem.getWith N a) = some 0 →
      execWith N (.div (.address a)) s = .next (s.afterFault .arithmeticFault)) ∧
    (∀ a, a < s.mem.capacity → val (s.mem.getWith N a) ≠ some 0 →
      execWith N (.div (.address a)) s =
        .next { s with acc := N.div s.acc (s.mem.getWith N a), pc := s.pc + 1 }) ∧
    N.isZero N.zero = true ∧ N.isNeg N.zero = false ∧
    ∀ n : ℤ, -10000 < n → n < 10000 →
      (N.isZero (N.ofInt n) = true ↔ n = 0) ∧ (N.isNeg (N.ofInt n) = true ↔ n < 0)
end

