-- ==== Sys2Proof/Laws/Decode.lean ====
section
/-! SUPPORT. The decoder's arithmetic: the opcode as a truncation and as the range of the word, the operand
as what the opcode leaves of the word. -/

namespace Sys2Proof

theorem trunc_neg (q : Value) : trunc (-q) = -trunc q := by
  simp [trunc, Int.neg_tdiv]

theorem trunc_of_nonneg {q : Value} (h : 0 ≤ q) : trunc q = ⌊q⌋ := by
  rw [trunc, Int.tdiv_eq_ediv_of_nonneg (Rat.num_nonneg.mpr h), Rat.floor_def']

/-- The opcode is the spec's `trunc(w / 100)` (R48). -/
theorem opc_eq_trunc (w : Value) : opc w = some (trunc (w / 100)) := by
  have nonneg : ∀ v : Value, 0 ≤ v → v.num.tdiv (100 * v.den) = trunc (v / 100) := fun v h => by
    have hf := Int.floor_div_natCast v 100
    push_cast at hf
    rw [trunc_of_nonneg (div_nonneg h (by norm_num)), hf,
      Int.tdiv_eq_ediv_of_nonneg (Rat.num_nonneg.mpr h), Rat.floor_def', mul_comm,
      Int.ediv_ediv_of_nonneg (by positivity)]
  rcases le_total 0 w with h | h
  · rw [opc, nonneg w h]
  · have e := nonneg (-w) (by linarith)
    rw [Rat.num_neg_eq_neg_num, Rat.den_neg_eq_den, Int.neg_tdiv, neg_div, trunc_neg, neg_inj] at e
    rw [opc, e]

/-- A positive opcode is the range of the word. -/
theorem opc_eq_iff {w : Value} {c : ℤ} (hc : 0 < c) :
    opc w = some c ↔ (100 * c : Value) ≤ w ∧ w < 100 * c + 100 := by
  have hd : (0 : ℤ) < 100 * w.den := by have := w.pos; omega
  have hdq : (0 : Value) < w.den := by exact_mod_cast w.pos
  have hw : w * w.den = w.num := Rat.mul_den_eq_num w
  have lo : (100 * c : Value) ≤ w ↔ c * (100 * w.den) ≤ w.num := by
    rw [← mul_le_mul_iff_left₀ hdq, hw]
    constructor <;> intro h
    · have : (100 * c * w.den : Value) ≤ (w.num : Value) := h
      have h2 : (100 * c * w.den : ℤ) ≤ w.num := by exact_mod_cast this
      linarith
    · have h2 : (100 * c * w.den : ℤ) ≤ w.num := by linarith
      exact_mod_cast h2
  have hi : w < 100 * c + 100 ↔ w.num < (c + 1) * (100 * w.den) := by
    rw [← mul_lt_mul_iff_left₀ hdq, hw]
    constructor <;> intro h
    · have h2 : w.num < ((100 * c + 100) * w.den : ℤ) := by exact_mod_cast h
      linarith
    · have h2 : w.num < ((100 * c + 100) * w.den : ℤ) := by linarith
      exact_mod_cast h2
  simp only [opc, Option.some.injEq, lo, hi]
  rcases le_or_gt 0 w.num with hn | hn
  · rw [Int.tdiv_eq_ediv_of_nonneg hn, ← Int.le_ediv_iff_mul_le hd, ← Int.ediv_lt_iff_lt_mul hd]
    omega
  · constructor
    · intro h
      have := Int.tdiv_nonneg (a := -w.num) (by omega) hd.le
      rw [Int.neg_tdiv] at this
      omega
    · rintro ⟨h, -⟩
      nlinarith

/-- The operand of an integer word is what the opcode leaves of it. -/
theorem opd_of_int (n : ℤ) : opd (n : Value) = some (n.tmod 100) := by simp [opd]

theorem opc_of_int (n : ℤ) : opc (n : Value) = some (n.tdiv 100) := by simp [opc]

theorem decode_eq {w : Value} {c : ℤ} (h : opc w = some c) :
    decode w = instrOf c (operandOfWith Machine.numQ c w) w := by
  have h' : Machine.numQ.opc w = some c := h
  simp [decode, decodeWith, h']

/-- The value of an operand: what it adds to `100 * c` in the word. -/
def Operand.value : Operand → Value
  | .address n => (n : Value)
  | .fraction q => q

theorem wordOf_numQ (c : ℤ) (o : Operand) : wordOf Machine.numQ c o = 100 * c + o.value := by
  cases o <;> simp [wordOf, Operand.value, Machine.numQ]

/-- The operand of an integer word that is not negative. -/
theorem operandOf_int {w : Value} (c : ℤ) (hd : w.den = 1) (hn : 0 ≤ w.num) :
    operandOfWith Machine.numQ c w = .address (w.num.tmod 100).toNat := by
  have h : Machine.numQ.opd w = some (w.num.tmod 100) := by simp [Machine.numQ, opd, hd]
  simp [operandOfWith, h, Int.tmod_nonneg 100 hn]

/-- The operand of a word that is no integer. -/
theorem operandOf_fraction {w : Value} (c : ℤ) (hd : w.den ≠ 1) :
    operandOfWith Machine.numQ c w = .fraction (w - 100 * c) := by
  have h : Machine.numQ.opd w = none := by simp [Machine.numQ, opd, hd]
  simp only [operandOfWith, h]
  simp [Machine.numQ]

/-- A word whose opcode is of the table is positive. -/
theorem num_nonneg_of_opc {w : Value} {c : ℤ} (hc : 0 < c) (h : opc w = some c) : 0 ≤ w.num := by
  have : (0 : Value) < c := by exact_mod_cast hc
  exact Rat.num_nonneg.mpr (by linarith [((opc_eq_iff hc).mp h).1])

/-- The value of the operand is what the opcode leaves of the word, for an opcode of the table. -/
theorem operandOf_value {w : Value} {c : ℤ} (hc : 0 < c) (h : opc w = some c) :
    (operandOfWith Machine.numQ c w).value = w - 100 * c := by
  by_cases hd : w.den = 1
  · have hw : (w.num : Value) = w := Rat.coe_int_num_of_den_eq_one hd
    have hq : w.num.tdiv 100 = c := by simpa [opc, hd] using h
    have e := Int.tmod_add_mul_tdiv w.num 100
    have hn := num_nonneg_of_opc hc h
    rw [hq] at e
    have e' : (w.num.tmod 100 : Value) + 100 * c = w.num := by exact_mod_cast e
    have e2 : ((w.num.tmod 100).toNat : Value) = (w.num.tmod 100 : ℤ) := by
      exact_mod_cast Int.toNat_of_nonneg (Int.tmod_nonneg 100 hn)
    simp only [operandOf_int c hd hn, Operand.value, e2]
    linarith
  · simp [operandOf_fraction c hd, Operand.value]

/-- The operand the decoder makes for an opcode of the table is one that the encoding admits. -/
theorem operandOf_wf {w : Value} {c : ℤ} (hc : 0 < c) (h : opc w = some c) :
    (operandOfWith Machine.numQ c w).wf = true := by
  have hv := operandOf_value hc h
  obtain ⟨lo, hi⟩ := (opc_eq_iff hc).mp h
  by_cases hd : w.den = 1
  · rw [operandOf_int c hd (num_nonneg_of_opc hc h)] at hv ⊢
    have : ((w.num.tmod 100).toNat : Value) < 100 := by
      simp only [Operand.value] at hv
      linarith
    exact decide_eq_true (by exact_mod_cast this)
  · simp only [operandOf_fraction c hd, Operand.wf, Bool.and_eq_true, decide_eq_true_eq]
    have hne : (w - 100 * (c : Value)).den ≠ 1 := fun e => hd <| by
      have h1 : w = ((w - 100 * (c : Value)).num + 100 * c : ℤ) := by
        push_cast
        rw [Rat.coe_int_num_of_den_eq_one e]
        ring
      rw [h1]
      exact Rat.den_intCast _
    refine ⟨⟨lt_of_le_of_ne (by linarith) fun e => hne ?_, by linarith⟩, hne⟩
    rw [← e]
    rfl

/-- The value of an operand that the encoding admits is below 100 and not negative. -/
theorem Operand.value_range {o : Operand} (h : o.wf = true) : 0 ≤ o.value ∧ o.value < 100 := by
  cases o with
  | address n =>
    have : n < 100 := by simpa [Operand.wf] using h
    exact ⟨by simp [Operand.value], by simp only [Operand.value]; exact_mod_cast this⟩
  | fraction q =>
    simp only [Operand.wf, Bool.and_eq_true, decide_eq_true_eq] at h
    exact ⟨h.1.1.le, h.1.2⟩

/-- A word made of an opcode of the table and an operand that the encoding admits has that opcode. -/
theorem opc_of_word {o : Operand} (h : o.wf = true) {c : ℤ} (hc : 0 < c) :
    opc (wordOf Machine.numQ c o) = some c := by
  obtain ⟨lo, hi⟩ := Operand.value_range h
  rw [wordOf_numQ]
  exact (opc_eq_iff hc).mpr ⟨by linarith, by linarith⟩

/-- … and that operand. -/
theorem operandOf_word {o : Operand} (h : o.wf = true) {c : ℤ} (hc : 0 < c) :
    operandOfWith Machine.numQ c (wordOf Machine.numQ c o) = o := by
  have hn := num_nonneg_of_opc hc (opc_of_word h hc)
  rw [wordOf_numQ] at hn ⊢
  cases o with
  | address n =>
    have hw : n < 100 := by simpa [Operand.wf] using h
    have e : (100 * c + Operand.value (.address n) : Value) = ((100 * c + n : ℤ) : Value) := by
      simp [Operand.value]
    rw [e] at hn ⊢
    rw [operandOf_int c (Rat.den_intCast _) hn, Rat.num_intCast, Operand.address.injEq,
      Int.tmod_eq_emod_of_nonneg (by omega)]
    omega
  | fraction q =>
    simp only [Operand.wf, Bool.and_eq_true, decide_eq_true_eq] at h
    have hd : (100 * c + q : Value).den ≠ 1 := fun e => h.2 <| by
      have h1 : q = ((100 * c + q : Value).num - 100 * c : ℤ) := by
        push_cast
        rw [Rat.coe_int_num_of_den_eq_one e]
        ring
      rw [h1]
      exact Rat.den_intCast _
    rw [show Operand.value (.fraction q) = q from rfl, operandOf_fraction c hd, add_sub_cancel_left]

/-! ## Over any numerics -/

/-- Decoding the word of an opcode below 100 and a two-digit operand, over any numerics that meet L1 (R8). -/
theorem decodeWith_ofInt {V : Type} {N : Numerics V} (hN : N.DecodesWords) {c a : ℤ} (hc0 : 0 ≤ c) (hc : c < 100)
    (ha0 : 0 ≤ a) (ha : a < 100) :
    decodeWith N (N.ofInt (100 * c + a)) = instrOf c (.address a.toNat) (N.ofInt (100 * c + a)) := by
  obtain ⟨h1, h2⟩ := hN (100 * c + a) (by omega) (by omega)
  rw [show (100 * c + a) / 100 = c by omega] at h1
  rw [show (100 * c + a) % 100 = a by omega] at h2
  simp [decodeWith, operandOfWith, h1, h2, ha0]

/-! ## The opcode set -/

/-- The opcode set, one by one. -/
theorem recognised_cases {c : ℕ} (h : c ∈ recognisedOpcodes) :
    c = 10 ∨ c = 11 ∨ c = 20 ∨ c = 21 ∨ c = 30 ∨ c = 31 ∨ c = 32 ∨ c = 33 ∨ c = 40 ∨ c = 41 ∨
      c = 42 ∨ c = 43 := by
  simpa [recognisedOpcodes] using h

theorem recognised_pos {c : ℕ} (h : c ∈ recognisedOpcodes) : 0 < c := by
  rcases recognised_cases h with h | h | h | h | h | h | h | h | h | h | h | h <;> omega

/-- An opcode outside the set selects the unrecognised case. -/
theorem instrOf_of_not_recognised {V : Type} {c : ℤ} (h : ∀ d ∈ recognisedOpcodes, c ≠ (d : ℤ)) (o : Operand V)
    (w : V) : instrOf c o w = .unrecognised w := by
  simp only [recognisedOpcodes, List.mem_cons, List.not_mem_nil, or_false, forall_eq_or_imp, forall_eq, ne_eq,
    Nat.cast_ofNat] at h
  simp [instrOf, h]

/-- A word without an opcode, or with one outside the set, decodes to the unrecognised case. -/
theorem decodeWith_of_not_recognised {V : Type} {N : Numerics V} {w : V}
    (h : ∀ d ∈ recognisedOpcodes, N.opc w ≠ some (d : ℤ)) : decodeWith N w = .unrecognised w := by
  unfold decodeWith
  cases hc : N.opc w with
  | none => rfl
  | some c => exact instrOf_of_not_recognised (fun d hd e => h d hd (by rw [hc, e])) _ w

theorem decode_of_not_recognised {w : Value} (h : ∀ d ∈ recognisedOpcodes, opc w ≠ some (d : ℤ)) :
    decode w = .unrecognised w := decodeWith_of_not_recognised h

theorem inRowOf_iff {w : Value} {c : ℕ} (hc : 0 < c) : inRowOf c w = true ↔ opc w = some (c : ℤ) := by
  rw [opc_eq_iff (by exact_mod_cast hc)]
  simp [inRowOf]

/-- A word is in no row of the table exactly when its opcode is outside the set. -/
theorem isUnrecognisedWord_iff {w : Value} :
    isUnrecognisedWord w = true ↔ ∀ d ∈ recognisedOpcodes, opc w ≠ some (d : ℤ) := by
  simp only [isUnrecognisedWord, List.all_eq_true, Bool.not_eq_true']
  refine forall₂_congr fun c hc => ?_
  rw [ne_eq, ← inRowOf_iff (recognised_pos hc), Bool.not_eq_true]

end Sys2Proof
end

