-- ==== Sys2Proof/Laws/Memory.lean ====
section
/-! SUPPORT. The laws of the memory array: read after write, the canonical form, the bounds, over any
numerics. -/

namespace Sys2Proof.Machine

variable {V : Type} {z : V}

theorem lookupCell_of_forall_ne {l : List (Nat × V)} {a : Nat} (h : ∀ c ∈ l, c.1 ≠ a) :
    lookupCell z l a = z := by
  induction l with
  | nil => rfl
  | cons c l ih =>
    obtain ⟨b, v⟩ := c
    have hb : a ≠ b := fun e => h (b, v) (by simp) e.symm
    simp only [lookupCell, hb, if_false]
    exact ih fun c hc => h c (by simp [hc])

variable [DecidableEq V]

/-- Every entry after an update is the new one or an old one. -/
theorem mem_updateCell {l : List (Nat × V)} {a : Nat} {v : V} {c : Nat × V}
    (h : c ∈ updateCell z l a v) : (c = (a, v) ∧ v ≠ z) ∨ c ∈ l := by
  induction l with
  | nil =>
    simp only [updateCell] at h
    split at h <;> simp_all
  | cons d l ih =>
    obtain ⟨b, u⟩ := d
    simp only [updateCell] at h
    split at h
    · split at h <;> simp_all
    · split at h
      · split at h <;> simp_all
        tauto
      · rcases List.mem_cons.mp h with rfl | h
        · simp
        · rcases ih h with h | h
          · exact Or.inl h
          · exact Or.inr (by simp [h])

theorem updateCell_sorted {l : List (Nat × V)} {a : Nat} {v : V}
    (h : l.Pairwise (fun c d => c.1 < d.1)) :
    (updateCell z l a v).Pairwise (fun c d => c.1 < d.1) := by
  induction l with
  | nil => simp only [updateCell]; split <;> simp
  | cons d l ih =>
    obtain ⟨b, u⟩ := d
    obtain ⟨hb, hl⟩ := List.pairwise_cons.mp h
    simp only [updateCell]
    split
    · rename_i hab
      split
      · exact h
      · refine List.pairwise_cons.mpr ⟨fun c hc => ?_, h⟩
        rcases List.mem_cons.mp hc with rfl | hc
        · exact hab
        · exact lt_trans hab (hb c hc)
    · split
      · rename_i hab
        subst hab
        split
        · exact hl
        · exact List.pairwise_cons.mpr ⟨hb, hl⟩
      · rename_i h1 h2
        refine List.pairwise_cons.mpr ⟨fun c hc => ?_, ih hl⟩
        rcases mem_updateCell hc with ⟨rfl, -⟩ | hc
        · show b < a
          omega
        · exact hb c hc

/-- Read after write, at the written address and at any other. -/
theorem lookupCell_updateCell {l : List (Nat × V)} (a b : Nat) (v : V)
    (h : l.Pairwise (fun c d => c.1 < d.1)) :
    lookupCell z (updateCell z l a v) b = if b = a then v else lookupCell z l b := by
  induction l with
  | nil =>
    simp only [updateCell]
    split <;> simp_all [lookupCell]
  | cons d l ih =>
    obtain ⟨c, u⟩ := d
    obtain ⟨hc, hl⟩ := List.pairwise_cons.mp h
    simp only [updateCell]
    split
    · rename_i hac
      split
      · rename_i hv
        split
        · rename_i hb
          subst hb hv
          refine lookupCell_of_forall_ne fun e he => ?_
          rcases List.mem_cons.mp he with rfl | he
          · exact (ne_of_lt hac).symm
          · have := hc e he
            dsimp only at this
            omega
        · rfl
      · simp [lookupCell]
    · split
      · rename_i hac
        subst hac
        split
        · rename_i hv
          split
          · rename_i hb
            subst hb hv
            refine lookupCell_of_forall_ne fun e he => ?_
            have := hc e he
            dsimp only at this
            omega
          · rename_i hb
            simp [lookupCell, hb]
        · rename_i hv
          by_cases hb : b = a <;> simp [lookupCell, hb]
      · rename_i h1 h2
        simp only [lookupCell, ih hl]
        by_cases hbc : b = c
        · subst hbc
          have : b ≠ a := fun e => h2 e.symm
          simp [this]
        · simp [hbc]

/-- Writing what a cell already reads as changes nothing. -/
theorem updateCell_lookupCell {l : List (Nat × V)} (a : Nat) (h : l.Pairwise (fun c d => c.1 < d.1))
    (hz : ∀ c ∈ l, c.2 ≠ z) : updateCell z l a (lookupCell z l a) = l := by
  induction l with
  | nil => simp [lookupCell, updateCell]
  | cons d l ih =>
    obtain ⟨b, u⟩ := d
    obtain ⟨hb, hl⟩ := List.pairwise_cons.mp h
    simp only [lookupCell]
    split
    · rename_i e
      subst e
      simp [updateCell, hz (a, u) (by simp)]
    · rename_i e
      simp only [updateCell]
      split
      · rename_i hab
        rw [lookupCell_of_forall_ne fun c hc => (lt_trans hab (hb c hc)).ne']
        simp
      · rw [ih hl fun c hc => hz c (by simp [hc])]

variable {N : Numerics V}

@[simp] theorem set_capacity (m : Memory V) (a : Nat) (v : V) :
    (m.setWith N a v).capacity = m.capacity := rfl

theorem get_set {m : Memory V} (h : m.wfWith N) (a b : Nat) (v : V) :
    (m.setWith N a v).getWith N b = if b = a then v else m.getWith N b :=
  lookupCell_updateCell a b v h.1

theorem set_get {m : Memory V} (h : m.wfWith N) (a : Nat) : m.setWith N a (m.getWith N a) = m := by
  unfold Memory.setWith Memory.getWith
  rw [updateCell_lookupCell a h.1 fun c hc => (h.2 c hc).2]

/-- A write inside the array keeps the canonical form. -/
theorem set_wf {m : Memory V} (h : m.wfWith N) {a : Nat} (ha : a < m.capacity) (v : V) :
    (m.setWith N a v).wfWith N := by
  refine ⟨updateCell_sorted h.1, fun c hc => ?_⟩
  rcases mem_updateCell hc with ⟨rfl, hv⟩ | hc
  · exact ⟨ha, hv⟩
  · exact h.2 c hc

theorem memWrite_some {m m' : Memory V} {a : Nat} {v : V} :
    memWriteWith N m a v = some m' ↔ a < m.capacity ∧ m.setWith N a v = m' := by
  simp [memWriteWith]

theorem memWrite_none {m : Memory V} {a : Nat} {v : V} :
    memWriteWith N m a v = none ↔ m.capacity ≤ a := by
  simp [memWriteWith]

/-- Every memory operation keeps the canonical form. -/
theorem memWrite_wf {m m' : Memory V} {a : Nat} {v : V} (h : m.wfWith N)
    (hw : memWriteWith N m a v = some m') : m'.wfWith N := by
  obtain ⟨ha, rfl⟩ := memWrite_some.mp hw
  exact set_wf h ha v

omit [DecidableEq V]

theorem memRead_some {m : Memory V} {a : Nat} {v : V} :
    memReadWith N m a = some v ↔ a < m.capacity ∧ m.getWith N a = v := by
  simp [memReadWith]

theorem memRead_none {m : Memory V} {a : Nat} : memReadWith N m a = none ↔ m.capacity ≤ a := by
  simp [memReadWith]

@[simp] theorem get_zeroFilled (n a : Nat) : (Memory.zeroFilled n).getWith N a = N.zero := rfl

@[simp] theorem zeroFilled_capacity (n : Nat) : (Memory.zeroFilled (V := V) n).capacity = n := rfl

theorem zeroFilled_wf (n : Nat) : (Memory.zeroFilled n).wfWith N := by
  simp [Memory.wfWith, Memory.zeroFilled]

theorem unlisted_eq_zero : Memory.unlisted numQ = 0 := rfl

end Sys2Proof.Machine
end

