-- ==== Sys2Proof/Laws/Numerics.lean ====
section
/-! SUPPORT. What each operation of NUM_Q is, and that NUM_Q meets the laws the record can say. -/

namespace Sys2Proof.Machine

@[simp] theorem numQ_zero : numQ.zero = 0 := rfl
@[simp] theorem numQ_ofInt (n : Int) : numQ.ofInt n = (n : Value) := rfl
@[simp] theorem numQ_add (a b : Value) : numQ.add a b = a + b := rfl
@[simp] theorem numQ_sub (a b : Value) : numQ.sub a b = a - b := rfl
@[simp] theorem numQ_mul (a b : Value) : numQ.mul a b = a * b := rfl
@[simp] theorem numQ_div (a b : Value) : numQ.div a b = a / b := rfl
@[simp] theorem numQ_isZero (v : Value) : numQ.isZero v = true ↔ v = 0 := by simp [numQ]
@[simp] theorem numQ_isNeg (v : Value) : numQ.isNeg v = true ↔ v < 0 := by simp [numQ]
@[simp] theorem accIsNeg_iff (s : State) : accIsNeg numQ s = true ↔ s.acc < 0 := by simp [accIsNeg]
@[simp] theorem accIsZero_iff (s : State) : accIsZero numQ s = true ↔ s.acc = 0 := by simp [accIsZero]
@[simp] theorem numQ_opc (w : Value) : numQ.opc w = opc w := rfl
@[simp] theorem numQ_opd (w : Value) : numQ.opd w = opd w := rfl

theorem numQ_lawful : numQ.Lawful fun q => some ((q : ℝ) : EReal) where
  decodes n h0 _ := by
    simp only [numQ_opc, numQ_opd, numQ_ofInt, opc_of_int, opd_of_int, Int.tdiv_eq_ediv_of_nonneg h0,
      Int.tmod_eq_emod_of_nonneg h0, and_self]
  represents n _ _ := by simp
  zeroIsZero := by simp
  isZeroIff v := by
    rw [numQ_isZero, Option.some.injEq, EReal.coe_eq_zero, Rat.cast_eq_zero]
  isNegIff v := by simp
  exampleExact := by
    norm_num
    rfl

/-! ### What follows from the laws of R8 -/

variable {V : Type} {N : Numerics V} {val : V → Option EReal}

/-- L2, on the zero. -/
theorem lawful_zero (h : N.Lawful val) : N.isZero N.zero = true ∧ N.isNeg N.zero = false := by
  refine ⟨(h.isZeroIff _).mpr h.zeroIsZero, ?_⟩
  rw [← Bool.not_eq_true, h.isNegIff, h.zeroIsZero]
  rintro ⟨x, hx, hn⟩
  exact (Option.some.inj hx ▸ hn).false

/-- L3, never both. -/
theorem lawful_notBoth (h : N.Lawful val) (v : V) : ¬(N.isZero v = true ∧ N.isNeg v = true) := by
  rw [h.isZeroIff, h.isNegIff]
  rintro ⟨hz, x, hx, hn⟩
  rw [hz] at hx
  exact (Option.some.inj hx ▸ hn).false

/-- L2 and L3 on the integers of one word. -/
theorem lawful_ofInt (h : N.Lawful val) {n : Int} (h1 : -10000 < n) (h2 : n < 10000) :
    (N.isZero (N.ofInt n) = true ↔ n = 0) ∧ (N.isNeg (N.ofInt n) = true ↔ n < 0) := by
  rw [h.isZeroIff, h.isNegIff, h.represents n h1 h2]
  simp

end Sys2Proof.Machine
end

