-- ==== Sys2Proof/Laws/State.lean ====
section
/-! SUPPORT. One lemma per field per update of the state, so that no proof unfolds a record update. -/

namespace Sys2Proof.Machine

variable {V : Type}

/-! ### `State.advance` -/

@[simp] theorem advance_mem (s : State V) : s.advance.mem = s.mem := rfl
@[simp] theorem advance_acc (s : State V) : s.advance.acc = s.acc := rfl
@[simp] theorem advance_pc (s : State V) : s.advance.pc = s.pc + 1 := rfl
@[simp] theorem advance_rs (s : State V) : s.advance.rs = s.rs := rfl
@[simp] theorem advance_fault (s : State V) : s.advance.fault = s.fault := rfl
@[simp] theorem advance_inputs (s : State V) : s.advance.inputs = s.inputs := rfl
@[simp] theorem advance_out (s : State V) : s.advance.out = s.out := rfl
@[simp] theorem advance_diag (s : State V) : s.advance.diag = s.diag := rfl
@[simp] theorem advance_commands (s : State V) : s.advance.commands = s.commands := rfl
@[simp] theorem advance_replies (s : State V) : s.advance.replies = s.replies := rfl

/-! ### `State.setAcc` -/

@[simp] theorem setAcc_mem (v : V) (s : State V) : (s.setAcc v).mem = s.mem := rfl
@[simp] theorem setAcc_acc (v : V) (s : State V) : (s.setAcc v).acc = v := rfl
@[simp] theorem setAcc_pc (v : V) (s : State V) : (s.setAcc v).pc = s.pc := rfl
@[simp] theorem setAcc_rs (v : V) (s : State V) : (s.setAcc v).rs = s.rs := rfl
@[simp] theorem setAcc_fault (v : V) (s : State V) : (s.setAcc v).fault = s.fault := rfl
@[simp] theorem setAcc_inputs (v : V) (s : State V) : (s.setAcc v).inputs = s.inputs := rfl
@[simp] theorem setAcc_out (v : V) (s : State V) : (s.setAcc v).out = s.out := rfl
@[simp] theorem setAcc_diag (v : V) (s : State V) : (s.setAcc v).diag = s.diag := rfl
@[simp] theorem setAcc_commands (v : V) (s : State V) : (s.setAcc v).commands = s.commands := rfl
@[simp] theorem setAcc_replies (v : V) (s : State V) : (s.setAcc v).replies = s.replies := rfl

/-! ### `State.setPc` -/

@[simp] theorem setPc_mem (t : Nat) (s : State V) : (s.setPc t).mem = s.mem := rfl
@[simp] theorem setPc_acc (t : Nat) (s : State V) : (s.setPc t).acc = s.acc := rfl
@[simp] theorem setPc_pc (t : Nat) (s : State V) : (s.setPc t).pc = t := rfl
@[simp] theorem setPc_rs (t : Nat) (s : State V) : (s.setPc t).rs = s.rs := rfl
@[simp] theorem setPc_fault (t : Nat) (s : State V) : (s.setPc t).fault = s.fault := rfl
@[simp] theorem setPc_inputs (t : Nat) (s : State V) : (s.setPc t).inputs = s.inputs := rfl
@[simp] theorem setPc_out (t : Nat) (s : State V) : (s.setPc t).out = s.out := rfl
@[simp] theorem setPc_diag (t : Nat) (s : State V) : (s.setPc t).diag = s.diag := rfl
@[simp] theorem setPc_commands (t : Nat) (s : State V) : (s.setPc t).commands = s.commands := rfl
@[simp] theorem setPc_replies (t : Nat) (s : State V) : (s.setPc t).replies = s.replies := rfl

/-! ### `State.setMem` -/

@[simp] theorem setMem_mem (m : Memory V) (s : State V) : (s.setMem m).mem = m := rfl
@[simp] theorem setMem_acc (m : Memory V) (s : State V) : (s.setMem m).acc = s.acc := rfl
@[simp] theorem setMem_pc (m : Memory V) (s : State V) : (s.setMem m).pc = s.pc := rfl
@[simp] theorem setMem_rs (m : Memory V) (s : State V) : (s.setMem m).rs = s.rs := rfl
@[simp] theorem setMem_fault (m : Memory V) (s : State V) : (s.setMem m).fault = s.fault := rfl
@[simp] theorem setMem_inputs (m : Memory V) (s : State V) : (s.setMem m).inputs = s.inputs := rfl
@[simp] theorem setMem_out (m : Memory V) (s : State V) : (s.setMem m).out = s.out := rfl
@[simp] theorem setMem_diag (m : Memory V) (s : State V) : (s.setMem m).diag = s.diag := rfl
@[simp] theorem setMem_commands (m : Memory V) (s : State V) : (s.setMem m).commands = s.commands := rfl
@[simp] theorem setMem_replies (m : Memory V) (s : State V) : (s.setMem m).replies = s.replies := rfl

/-! ### `State.setInputs` -/

@[simp] theorem setInputs_mem (ts : List (Token V)) (s : State V) : (s.setInputs ts).mem = s.mem := rfl
@[simp] theorem setInputs_acc (ts : List (Token V)) (s : State V) : (s.setInputs ts).acc = s.acc := rfl
@[simp] theorem setInputs_pc (ts : List (Token V)) (s : State V) : (s.setInputs ts).pc = s.pc := rfl
@[simp] theorem setInputs_rs (ts : List (Token V)) (s : State V) : (s.setInputs ts).rs = s.rs := rfl
@[simp] theorem setInputs_fault (ts : List (Token V)) (s : State V) : (s.setInputs ts).fault = s.fault := rfl
@[simp] theorem setInputs_inputs (ts : List (Token V)) (s : State V) : (s.setInputs ts).inputs = ts := rfl
@[simp] theorem setInputs_out (ts : List (Token V)) (s : State V) : (s.setInputs ts).out = s.out := rfl
@[simp] theorem setInputs_diag (ts : List (Token V)) (s : State V) : (s.setInputs ts).diag = s.diag := rfl
@[simp] theorem setInputs_commands (ts : List (Token V)) (s : State V) : (s.setInputs ts).commands = s.commands := rfl
@[simp] theorem setInputs_replies (ts : List (Token V)) (s : State V) : (s.setInputs ts).replies = s.replies := rfl

/-! ### `State.emit` -/

@[simp] theorem emit_mem (v : V) (s : State V) : (s.emit v).mem = s.mem := rfl
@[simp] theorem emit_acc (v : V) (s : State V) : (s.emit v).acc = s.acc := rfl
@[simp] theorem emit_pc (v : V) (s : State V) : (s.emit v).pc = s.pc := rfl
@[simp] theorem emit_rs (v : V) (s : State V) : (s.emit v).rs = s.rs := rfl
@[simp] theorem emit_fault (v : V) (s : State V) : (s.emit v).fault = s.fault := rfl
@[simp] theorem emit_inputs (v : V) (s : State V) : (s.emit v).inputs = s.inputs := rfl
@[simp] theorem emit_out (v : V) (s : State V) : (s.emit v).out = s.out ++ [v] := rfl
@[simp] theorem emit_diag (v : V) (s : State V) : (s.emit v).diag = s.diag := rfl
@[simp] theorem emit_commands (v : V) (s : State V) : (s.emit v).commands = s.commands := rfl
@[simp] theorem emit_replies (v : V) (s : State V) : (s.emit v).replies = s.replies := rfl

/-! ### `State.report` -/

@[simp] theorem report_mem (e : DiagEvent) (s : State V) : (s.report e).mem = s.mem := rfl
@[simp] theorem report_acc (e : DiagEvent) (s : State V) : (s.report e).acc = s.acc := rfl
@[simp] theorem report_pc (e : DiagEvent) (s : State V) : (s.report e).pc = s.pc := rfl
@[simp] theorem report_rs (e : DiagEvent) (s : State V) : (s.report e).rs = s.rs := rfl
@[simp] theorem report_fault (e : DiagEvent) (s : State V) : (s.report e).fault = s.fault := rfl
@[simp] theorem report_inputs (e : DiagEvent) (s : State V) : (s.report e).inputs = s.inputs := rfl
@[simp] theorem report_out (e : DiagEvent) (s : State V) : (s.report e).out = s.out := rfl
@[simp] theorem report_diag (e : DiagEvent) (s : State V) : (s.report e).diag = s.diag ++ [e] := rfl
@[simp] theorem report_commands (e : DiagEvent) (s : State V) : (s.report e).commands = s.commands := rfl
@[simp] theorem report_replies (e : DiagEvent) (s : State V) : (s.report e).replies = s.replies := rfl

/-! ### `State.halt` -/

@[simp] theorem halt_mem (s : State V) : s.halt.mem = s.mem := rfl
@[simp] theorem halt_acc (s : State V) : s.halt.acc = s.acc := rfl
@[simp] theorem halt_pc (s : State V) : s.halt.pc = s.pc := rfl
@[simp] theorem halt_rs (s : State V) : s.halt.rs = .halted := rfl
@[simp] theorem halt_fault (s : State V) : s.halt.fault = s.fault := rfl
@[simp] theorem halt_inputs (s : State V) : s.halt.inputs = s.inputs := rfl
@[simp] theorem halt_out (s : State V) : s.halt.out = s.out := rfl
@[simp] theorem halt_diag (s : State V) : s.halt.diag = s.diag := rfl
@[simp] theorem halt_commands (s : State V) : s.halt.commands = s.commands := rfl
@[simp] theorem halt_replies (s : State V) : s.halt.replies = s.replies := rfl

/-! ### `State.answer` -/

@[simp] theorem answer_mem (r : HostReply V) (s : State V) : (s.answer r).mem = s.mem := rfl
@[simp] theorem answer_acc (r : HostReply V) (s : State V) : (s.answer r).acc = s.acc := rfl
@[simp] theorem answer_pc (r : HostReply V) (s : State V) : (s.answer r).pc = s.pc := rfl
@[simp] theorem answer_rs (r : HostReply V) (s : State V) : (s.answer r).rs = s.rs := rfl
@[simp] theorem answer_fault (r : HostReply V) (s : State V) : (s.answer r).fault = s.fault := rfl
@[simp] theorem answer_inputs (r : HostReply V) (s : State V) : (s.answer r).inputs = s.inputs := rfl
@[simp] theorem answer_out (r : HostReply V) (s : State V) : (s.answer r).out = s.out := rfl
@[simp] theorem answer_diag (r : HostReply V) (s : State V) : (s.answer r).diag = s.diag := rfl
@[simp] theorem answer_commands (r : HostReply V) (s : State V) : (s.answer r).commands = s.commands := rfl
@[simp] theorem answer_replies (r : HostReply V) (s : State V) : (s.answer r).replies = s.replies ++ [r] := rfl

/-! ### `State.offer` -/

@[simp] theorem offer_mem (t : Token V) (s : State V) : (s.offer t).mem = s.mem := rfl
@[simp] theorem offer_acc (t : Token V) (s : State V) : (s.offer t).acc = s.acc := rfl
@[simp] theorem offer_pc (t : Token V) (s : State V) : (s.offer t).pc = s.pc := rfl
@[simp] theorem offer_rs (t : Token V) (s : State V) : (s.offer t).rs = s.rs := rfl
@[simp] theorem offer_fault (t : Token V) (s : State V) : (s.offer t).fault = s.fault := rfl
@[simp] theorem offer_inputs (t : Token V) (s : State V) : (s.offer t).inputs = s.inputs ++ [t] := rfl
@[simp] theorem offer_out (t : Token V) (s : State V) : (s.offer t).out = s.out := rfl
@[simp] theorem offer_diag (t : Token V) (s : State V) : (s.offer t).diag = s.diag := rfl
@[simp] theorem offer_commands (t : Token V) (s : State V) : (s.offer t).commands = s.commands := rfl
@[simp] theorem offer_replies (t : Token V) (s : State V) : (s.offer t).replies = s.replies := rfl

/-! ### `raise` -/

@[simp] theorem raise_mem (k : FaultKind) (p : Nat) (s : State V) : (raise k p s).mem = s.mem := rfl
@[simp] theorem raise_acc (k : FaultKind) (p : Nat) (s : State V) : (raise k p s).acc = s.acc := rfl
@[simp] theorem raise_pc (k : FaultKind) (p : Nat) (s : State V) : (raise k p s).pc = s.pc := rfl
@[simp] theorem raise_rs (k : FaultKind) (p : Nat) (s : State V) : (raise k p s).rs = .halted := rfl
@[simp] theorem raise_fault (k : FaultKind) (p : Nat) (s : State V) : (raise k p s).fault = some { kind := k, at' := p } := rfl
@[simp] theorem raise_inputs (k : FaultKind) (p : Nat) (s : State V) : (raise k p s).inputs = s.inputs := rfl
@[simp] theorem raise_out (k : FaultKind) (p : Nat) (s : State V) : (raise k p s).out = s.out := rfl
@[simp] theorem raise_diag (k : FaultKind) (p : Nat) (s : State V) : (raise k p s).diag = s.diag ++ [.fault k p] := rfl
@[simp] theorem raise_commands (k : FaultKind) (p : Nat) (s : State V) : (raise k p s).commands = s.commands := rfl
@[simp] theorem raise_replies (k : FaultKind) (p : Nat) (s : State V) : (raise k p s).replies = s.replies := rfl

/-! ### `resetEvent` -/

@[simp] theorem resetEvent_mem (N : Numerics V) (s : State V) : (resetEvent N s).mem = Memory.zeroFilled s.mem.capacity := rfl
@[simp] theorem resetEvent_acc (N : Numerics V) (s : State V) : (resetEvent N s).acc = N.zero := rfl
@[simp] theorem resetEvent_pc (N : Numerics V) (s : State V) : (resetEvent N s).pc = 0 := rfl
@[simp] theorem resetEvent_rs (N : Numerics V) (s : State V) : (resetEvent N s).rs = .ready := rfl
@[simp] theorem resetEvent_fault (N : Numerics V) (s : State V) : (resetEvent N s).fault = none := rfl
@[simp] theorem resetEvent_inputs (N : Numerics V) (s : State V) : (resetEvent N s).inputs = s.inputs := rfl
@[simp] theorem resetEvent_out (N : Numerics V) (s : State V) : (resetEvent N s).out = [] := rfl
@[simp] theorem resetEvent_diag (N : Numerics V) (s : State V) : (resetEvent N s).diag = [] := rfl
@[simp] theorem resetEvent_commands (N : Numerics V) (s : State V) : (resetEvent N s).commands = s.commands := rfl
@[simp] theorem resetEvent_replies (N : Numerics V) (s : State V) : (resetEvent N s).replies = s.replies := rfl

/-! ### `startEvent` -/

@[simp] theorem startEvent_mem (s : State V) : (startEvent s).mem = s.mem := rfl
@[simp] theorem startEvent_acc (s : State V) : (startEvent s).acc = s.acc := rfl
@[simp] theorem startEvent_pc (s : State V) : (startEvent s).pc = 0 := rfl
@[simp] theorem startEvent_rs (s : State V) : (startEvent s).rs = .running := rfl
@[simp] theorem startEvent_fault (s : State V) : (startEvent s).fault = none := rfl
@[simp] theorem startEvent_inputs (s : State V) : (startEvent s).inputs = s.inputs := rfl
@[simp] theorem startEvent_out (s : State V) : (startEvent s).out = s.out := rfl
@[simp] theorem startEvent_diag (s : State V) : (startEvent s).diag = s.diag := rfl
@[simp] theorem startEvent_commands (s : State V) : (startEvent s).commands = s.commands := rfl
@[simp] theorem startEvent_replies (s : State V) : (startEvent s).replies = s.replies := rfl

end Sys2Proof.Machine
end

