-- ==== Sys2Proof/Laws/Ops.lean ====
section
/-! SUPPORT. For each shared operation, one lemma that says everything it can do, over any numerics; and that the
hardware's `exec` and `step` are the machine's at NUM_Q. -/

namespace Sys2Proof.Machine

variable {V : Type} {N : Numerics V}

theorem operandCell_some {o : Operand V} {m : Memory V} {a : Nat} :
    operandCell o m = some a ↔ o = .address a ∧ a < m.capacity := by
  cases o with
  | address n =>
    simp only [operandCell, Operand.address.injEq]
    by_cases h : n < m.capacity
    · simp only [h, if_true, Option.some.injEq]
      exact ⟨fun e => ⟨e, e ▸ h⟩, fun e => e.1⟩
    · simp only [h, if_false, reduceCtorEq, false_iff, not_and]
      exact fun e => e ▸ h
  | fraction q => simp [operandCell]

theorem operandCell_none {o : Operand V} {m : Memory V} :
    operandCell o m = none ↔ ∀ a, o = .address a → m.capacity ≤ a := by
  cases o <;> simp [operandCell]

theorem operandRead_some {o : Operand V} {m : Memory V} {v : V} :
    operandRead N o m = some v ↔ ∃ a, o = .address a ∧ a < m.capacity ∧ m.getWith N a = v := by
  cases o <;> simp [operandRead, memRead_some]

theorem operandRead_none {o : Operand V} {m : Memory V} :
    operandRead N o m = none ↔ operandCell o m = none := by
  cases o <;> simp [operandRead, operandCell, memRead_none]

theorem operandRead_of_cell {o : Operand V} {m : Memory V} {a : Nat} (h : operandCell o m = some a) :
    operandRead N o m = some (m.getWith N a) := by
  obtain ⟨rfl, ha⟩ := operandCell_some.mp h
  simp [operandRead, memReadWith, ha]

/-- WRITE, LOAD and the arithmetic: a fault with the effects abandoned, or `f` of the cell's value. -/
theorem withValue_cases (N : Numerics V) (o : Operand V) (s : State V) (f : V → State V → State V) :
    (operandCell o s.mem = none ∧ withValue N o s f = abandon .addressFault s) ∨
    (∃ a, operandCell o s.mem = some a ∧
      withValue N o s f = .next (f (s.mem.getWith N a) s.advance)) := by
  cases h : operandCell o s.mem with
  | none => exact .inl ⟨rfl, by simp [withValue, operandRead_none.mpr h]⟩
  | some a => exact .inr ⟨a, rfl, by simp [withValue, operandRead_of_cell h]⟩

theorem withValue_of_lt {s : State V} {a : Nat} (ha : a < s.mem.capacity) (f : V → State V → State V) :
    withValue N (.address a) s f = .next (f (s.mem.getWith N a) s.advance) := by
  simp [withValue, operandRead, memReadWith, ha]

/-- The branches: a fault for a non-integer operand, the target, or the fallthrough. -/
theorem branchIf_cases (taken : Bool) (o : Operand V) (s : State V) :
    (operandTarget o = none ∧ branchIf taken o s = abandon .addressFault s) ∨
    (∃ t, o = .address t ∧ taken = true ∧ branchIf taken o s = .next (s.advance.setPc t)) ∨
    (∃ t, o = .address t ∧ taken = false ∧ branchIf taken o s = .next s.advance) := by
  cases o with
  | fraction q => exact .inl ⟨rfl, rfl⟩
  | address t => cases taken <;> simp [branchIf, operandTarget]

/-- The host's accesses: the range of R31. -/
theorem hostCell_some {a : Int} {m : Memory V} {n : Nat} :
    hostCell a m = some n ↔ a = n ∧ n < m.capacity := by
  simp only [hostCell, Option.ite_none_right_eq_some, Option.some.injEq]
  omega

theorem hostCell_none {a : Int} {m : Memory V} :
    hostCell a m = none ↔ a < 0 ∨ (m.capacity : Int) ≤ a := by
  simp only [hostCell, ite_eq_right_iff, reduceCtorEq, imp_false]
  omega

/-- An address in range names its own cell. -/
theorem hostCell_of_lt {n : Nat} {m : Memory V} (h : n < m.capacity) : hostCell (n : Int) m = some n :=
  hostCell_some.mpr ⟨rfl, h⟩

theorem fetch_some {s : State V} {w : V} :
    fetchWith N s = some w ↔ s.pc < s.mem.capacity ∧ s.mem.getWith N s.pc = w := memRead_some

theorem fetch_none {s : State V} : fetchWith N s = none ↔ s.mem.capacity ≤ s.pc := memRead_none

/-- The value a token leaves in READ's cell. -/
def Token.stored (N : Numerics V) : Token V → V
  | .num v => v
  | .malformed => N.zero

variable [DecidableEq V]

theorem operandWrite_of_cell {o : Operand V} {m : Memory V} {a : Nat} (v : V)
    (h : operandCell o m = some a) : operandWrite N o v m = some (m.setWith N a v) := by
  obtain ⟨rfl, ha⟩ := operandCell_some.mp h
  simp [operandWrite, memWriteWith, ha]

theorem operandWrite_none {o : Operand V} {m : Memory V} {v : V} :
    operandWrite N o v m = none ↔ operandCell o m = none := by
  cases o <;> simp [operandWrite, operandCell, memWrite_none]

/-- READ: a fault, the wait, or the token taken. -/
theorem execRead_cases (N : Numerics V) (o : Operand V) (s : State V) :
    (operandCell o s.mem = none ∧ execReadWith N o s = abandon .addressFault s) ∨
    (∃ a, operandCell o s.mem = some a ∧ s.inputs = [] ∧ execReadWith N o s = .next s) ∨
    (∃ a t rest, operandCell o s.mem = some a ∧ s.inputs = t :: rest ∧
      execReadWith N o s = .next (receive N s.pc a t (s.advance.setInputs rest))) := by
  unfold execReadWith
  cases h : operandCell o s.mem with
  | none => simp
  | some a => cases hi : s.inputs <;> simp

@[simp] theorem receive_mem (p a : Nat) (t : Token V) (s : State V) :
    (receive N p a t s).mem = s.mem.setWith N a (t.stored N) := by cases t <;> rfl
@[simp] theorem receive_acc (p a : Nat) (t : Token V) (s : State V) :
    (receive N p a t s).acc = s.acc := by cases t <;> rfl
@[simp] theorem receive_pc (p a : Nat) (t : Token V) (s : State V) :
    (receive N p a t s).pc = s.pc := by cases t <;> rfl
@[simp] theorem receive_rs (p a : Nat) (t : Token V) (s : State V) :
    (receive N p a t s).rs = s.rs := by cases t <;> rfl
@[simp] theorem receive_fault (p a : Nat) (t : Token V) (s : State V) :
    (receive N p a t s).fault = s.fault := by cases t <;> rfl
@[simp] theorem receive_inputs (p a : Nat) (t : Token V) (s : State V) :
    (receive N p a t s).inputs = s.inputs := by cases t <;> rfl
@[simp] theorem receive_out (p a : Nat) (t : Token V) (s : State V) :
    (receive N p a t s).out = s.out := by cases t <;> rfl
@[simp] theorem receive_commands (p a : Nat) (t : Token V) (s : State V) :
    (receive N p a t s).commands = s.commands := by cases t <;> rfl
@[simp] theorem receive_replies (p a : Nat) (t : Token V) (s : State V) :
    (receive N p a t s).replies = s.replies := by cases t <;> rfl

/-- One step with any dispatch: the host's turn, the fetch's fault, or the dispatch of the decoded word. -/
theorem stepBy_cases (N : Numerics V) (ex : Instr V → State V → Result V) (s : State V) :
    (s.rs ≠ .running ∧ stepBy N ex s = .next (hostTurn N s)) ∨
    (s.rs = .running ∧ fetchWith N s = none ∧ stepBy N ex s = .next (raise .addressFault s.pc s)) ∨
    (∃ w, s.rs = .running ∧ fetchWith N s = some w ∧ stepBy N ex s = ex (decodeWith N w) s) := by
  unfold stepBy
  cases hr : s.rs <;> simp
  cases hw : fetchWith N s <;> simp

/-- What a step is while the engine runs and the fetch is inside memory, with any dispatch. -/
theorem stepBy_of_fetch {ex : Instr V → State V → Result V} {s : State V} {w : V}
    (hr : s.rs = .running) (hw : fetchWith N s = some w) : stepBy N ex s = ex (decodeWith N w) s := by
  simp [stepBy, hr, hw]

omit [DecidableEq V]

/-! ## The hardware: NUM_Q -/

/-- The hardware's dispatch is the machine's at NUM_Q. -/
theorem exec_eq_with (i : Instr) (s : State) : exec i s = execWith numQ i s := by cases i <;> rfl

/-- The hardware's step is the machine's at NUM_Q. -/
theorem step_eq_with (s : State) : step s = stepWith numQ s :=
  congrArg (fun ex => stepBy numQ ex s) (funext₂ exec_eq_with)

theorem step_of_fetch {s : State} {w : Value} (hr : s.rs = .running) (hw : fetch s = some w) :
    step s = exec (decode w) s := stepBy_of_fetch hr hw

/-- One step: the host's turn, the fetch's fault, or the decoded instruction. -/
theorem step_cases (s : State) :
    (s.rs ≠ .running ∧ step s = .next (hostTurn numQ s)) ∨
    (s.rs = .running ∧ fetch s = none ∧ step s = .next (raise .addressFault s.pc s)) ∨
    (∃ w, s.rs = .running ∧ fetch s = some w ∧ step s = exec (decode w) s) :=
  stepBy_cases numQ exec s

end Sys2Proof.Machine
end

