-- ==== Sys2Proof/Laws/PerInstr.lean ====
section
/-! SUPPORT. Per instruction: the word the encoder writes has the opcode of the map (spec/30_encoding.md R52). -/

namespace Sys2Proof.Laws

/-- What the encoder and the decoder's opcode say of one instruction. -/
def EncodedOpcode.Statement (i : Instr) : Prop :=
  i.wf = true → ∀ c, i.opcode = some c → opc (encode i) = some (c : ℤ)

theorem EncodedOpcode.read (o : Operand) : EncodedOpcode.Statement (.read o) := by
  rintro h c ⟨⟩
  exact opc_of_word h (by norm_num)

theorem EncodedOpcode.write (o : Operand) : EncodedOpcode.Statement (.write o) := by
  rintro h c ⟨⟩
  exact opc_of_word h (by norm_num)

theorem EncodedOpcode.load (o : Operand) : EncodedOpcode.Statement (.load o) := by
  rintro h c ⟨⟩
  exact opc_of_word h (by norm_num)

theorem EncodedOpcode.store (o : Operand) : EncodedOpcode.Statement (.store o) := by
  rintro h c ⟨⟩
  exact opc_of_word h (by norm_num)

theorem EncodedOpcode.add (o : Operand) : EncodedOpcode.Statement (.add o) := by
  rintro h c ⟨⟩
  exact opc_of_word h (by norm_num)

theorem EncodedOpcode.sub (o : Operand) : EncodedOpcode.Statement (.sub o) := by
  rintro h c ⟨⟩
  exact opc_of_word h (by norm_num)

theorem EncodedOpcode.mul (o : Operand) : EncodedOpcode.Statement (.mul o) := by
  rintro h c ⟨⟩
  exact opc_of_word h (by norm_num)

theorem EncodedOpcode.div (o : Operand) : EncodedOpcode.Statement (.div o) := by
  rintro h c ⟨⟩
  exact opc_of_word h (by norm_num)

theorem EncodedOpcode.branch (o : Operand) : EncodedOpcode.Statement (.branch o) := by
  rintro h c ⟨⟩
  exact opc_of_word h (by norm_num)

theorem EncodedOpcode.branchNeg (o : Operand) : EncodedOpcode.Statement (.branchNeg o) := by
  rintro h c ⟨⟩
  exact opc_of_word h (by norm_num)

theorem EncodedOpcode.branchZero (o : Operand) : EncodedOpcode.Statement (.branchZero o) := by
  rintro h c ⟨⟩
  exact opc_of_word h (by norm_num)

theorem EncodedOpcode.halt (o : Operand) : EncodedOpcode.Statement (.halt o) := by
  rintro h c ⟨⟩
  exact opc_of_word h (by norm_num)

theorem EncodedOpcode.unrecognised (w : Value) : EncodedOpcode.Statement (.unrecognised w) := by
  rintro - c ⟨⟩

end Sys2Proof.Laws
end

