-- ==== Sys2Proof/Laws/Safety.lean ====
section
/-! SUPPORT. The claims' vocabulary in terms of the shared operations, and everything one instruction can do, over any
numerics. -/

namespace Sys2Proof.Machine

/-- A step that changes nothing is repeated for ever. -/
theorem run_of_step_self {s : State} (h : step s = .next s) (n : Nat) : core.run n s = .next s := by
  induction n with
  | zero => rfl
  | succ n ih =>
    refine (Host.Core.run.eq_2 core s n).trans ?_
    rw [show core.step s = Host.Outcome.next s from h]
    exact ih

variable {V : Type} {N : Numerics V}

theorem namesNoCell_iff {o : Operand V} {m : Memory V} : namesNoCell o m ↔ operandCell o m = none :=
  operandCell_none.symm

theorem abandon_eq (k : FaultKind) (s : State V) : abandon k s = .next (s.afterFault k) := rfl

@[simp] theorem afterFault_mem (k : FaultKind) (s : State V) : (s.afterFault k).mem = s.mem := rfl
@[simp] theorem afterFault_acc (k : FaultKind) (s : State V) : (s.afterFault k).acc = s.acc := rfl
@[simp] theorem afterFault_pc (k : FaultKind) (s : State V) : (s.afterFault k).pc = s.pc + 1 := rfl
@[simp] theorem afterFault_rs (k : FaultKind) (s : State V) : (s.afterFault k).rs = .halted := rfl
@[simp] theorem afterFault_fault (k : FaultKind) (s : State V) :
    (s.afterFault k).fault = some { kind := k, at' := s.pc } := rfl
@[simp] theorem afterFault_inputs (k : FaultKind) (s : State V) : (s.afterFault k).inputs = s.inputs := rfl
@[simp] theorem afterFault_out (k : FaultKind) (s : State V) : (s.afterFault k).out = s.out := rfl
@[simp] theorem afterFault_diag (k : FaultKind) (s : State V) :
    (s.afterFault k).diag = s.diag ++ [.fault k s.pc] := rfl
@[simp] theorem afterFault_commands (k : FaultKind) (s : State V) :
    (s.afterFault k).commands = s.commands := rfl
@[simp] theorem afterFault_replies (k : FaultKind) (s : State V) :
    (s.afterFault k).replies = s.replies := rfl

/-- The eight instructions that use their operand as a cell address. -/
def usesCell (o : Operand V) (i : Instr V) : Prop :=
  i = .read o ∨ i = .write o ∨ i = .load o ∨ i = .store o ∨ i = .add o ∨ i = .sub o ∨ i = .mul o ∨
    i = .div o

/-- LOAD and the arithmetic on the cell `a`, with what each leaves in the accumulator. -/
inductive AccResult (N : Numerics V) (s : State V) (a : Nat) : Instr V → V → Prop
  | load : AccResult N s a (.load (.address a)) (s.mem.getWith N a)
  | add : AccResult N s a (.add (.address a)) (N.add s.acc (s.mem.getWith N a))
  | sub : AccResult N s a (.sub (.address a)) (N.sub s.acc (s.mem.getWith N a))
  | mul : AccResult N s a (.mul (.address a)) (N.mul s.acc (s.mem.getWith N a))
  | div (h : N.isZero (s.mem.getWith N a) = false) :
      AccResult N s a (.div (.address a)) (N.div s.acc (s.mem.getWith N a))

/-- Everything one instruction can do: the fault entries, the wait, and the effects. -/
inductive Effect [DecidableEq V] (N : Numerics V) (s : State V) : Instr V → State V → Prop
  | noCell {o i} (h : operandCell o s.mem = none) (hi : usesCell o i) :
      Effect N s i (s.afterFault .addressFault)
  | noTarget {q i} (hi : i = .branch (.fraction q) ∨ i = .branchNeg (.fraction q) ∨
      i = .branchZero (.fraction q)) : Effect N s i (s.afterFault .addressFault)
  | zeroDivisor {a} (ha : a < s.mem.capacity) (h : N.isZero (s.mem.getWith N a) = true) :
      Effect N s (.div (.address a)) (s.afterFault .arithmeticFault)
  | wait {a} (ha : a < s.mem.capacity) (h : s.inputs = []) : Effect N s (.read (.address a)) s
  | read {a tok rest} (ha : a < s.mem.capacity) (h : s.inputs = tok :: rest) :
      Effect N s (.read (.address a)) (receive N s.pc a tok (s.advance.setInputs rest))
  | write {a} (ha : a < s.mem.capacity) :
      Effect N s (.write (.address a)) (s.advance.emit (s.mem.getWith N a))
  | acc {a i v} (ha : a < s.mem.capacity) (h : AccResult N s a i v) : Effect N s i (s.advance.setAcc v)
  | store {a} (ha : a < s.mem.capacity) :
      Effect N s (.store (.address a)) (s.advance.setMem (s.mem.setWith N a s.acc))
  | jump {t i} (h : i = .branch (.address t) ∨ i = .branchNeg (.address t) ∧ N.isNeg s.acc = true ∨
      i = .branchZero (.address t) ∧ N.isZero s.acc = true) : Effect N s i (s.advance.setPc t)
  | fallThrough {t i} (h : i = .branchNeg (.address t) ∧ N.isNeg s.acc = false ∨
      i = .branchZero (.address t) ∧ N.isZero s.acc = false) : Effect N s i s.advance
  | halt {i} (h : (∃ o, i = .halt o) ∨ ∃ w, i = .unrecognised w) : Effect N s i s.advance.halt

variable [DecidableEq V]

theorem withValue_effect {o : Operand V} {s : State V} {f : V → State V → State V} {i : Instr V}
    (hi : usesCell o i) (he : execWith N i s = withValue N o s f)
    (hf : ∀ a, o = .address a → a < s.mem.capacity → Effect N s i (f (s.mem.getWith N a) s.advance)) :
    ∃ t, execWith N i s = .next t ∧ Effect N s i t := by
  rcases withValue_cases N o s f with ⟨hn, hv⟩ | ⟨a, ha, hv⟩
  · exact ⟨_, by rw [he, hv, abandon_eq], .noCell hn hi⟩
  · obtain ⟨ho, hc⟩ := operandCell_some.mp ha
    exact ⟨_, he.trans hv, hf a ho hc⟩

theorem branchIf_effect {taken : Bool} {o : Operand V} {s : State V} {i : Instr V}
    (he : execWith N i s = branchIf taken o s)
    (hn : ∀ q, o = .fraction q → Effect N s i (s.afterFault .addressFault))
    (ht : ∀ t, o = .address t → taken = true → Effect N s i (s.advance.setPc t))
    (hf : ∀ t, o = .address t → taken = false → Effect N s i s.advance) :
    ∃ t, execWith N i s = .next t ∧ Effect N s i t := by
  rcases branchIf_cases taken o s with ⟨h, hv⟩ | ⟨t, ho, hb, hv⟩ | ⟨t, ho, hb, hv⟩
  · cases o with
    | address t => cases h
    | fraction q => exact ⟨_, by rw [he, hv, abandon_eq], hn q rfl⟩
  · exact ⟨_, he.trans hv, ht t ho hb⟩
  · exact ⟨_, he.trans hv, hf t ho hb⟩

/-- Every instruction has a next state, and that is one of the effects. -/
theorem execWith_effect (N : Numerics V) (i : Instr V) (s : State V) :
    ∃ t, execWith N i s = .next t ∧ Effect N s i t := by
  cases i with
  | read o =>
    rcases execRead_cases N o s with ⟨hn, hv⟩ | ⟨a, ha, hi, hv⟩ | ⟨a, tok, rest, ha, hi, hv⟩
    · exact ⟨_, hv, .noCell hn (by simp [usesCell])⟩
    · obtain ⟨rfl, hc⟩ := operandCell_some.mp ha
      exact ⟨_, hv, .wait hc hi⟩
    · obtain ⟨rfl, hc⟩ := operandCell_some.mp ha
      exact ⟨_, hv, .read hc hi⟩
  | write o => exact withValue_effect (by simp [usesCell]) rfl fun a ho ha => by subst ho; exact .write ha
  | load o =>
    exact withValue_effect (by simp [usesCell]) rfl fun a ho ha => by subst ho; exact .acc ha .load
  | store o =>
    cases hc : operandCell o s.mem with
    | none =>
      exact ⟨_, by simp [execWith, execStoreWith, operandWrite_none.mpr hc, abandon_eq],
        .noCell hc (by simp [usesCell])⟩
    | some a =>
      have hw := operandWrite_of_cell (N := N) s.acc hc
      obtain ⟨rfl, ha⟩ := operandCell_some.mp hc
      exact ⟨_, by simp [execWith, execStoreWith, hw], .store ha⟩
  | add o =>
    exact withValue_effect (by simp [usesCell]) rfl fun a ho ha => by subst ho; exact .acc ha .add
  | sub o =>
    exact withValue_effect (by simp [usesCell]) rfl fun a ho ha => by subst ho; exact .acc ha .sub
  | mul o =>
    exact withValue_effect (by simp [usesCell]) rfl fun a ho ha => by subst ho; exact .acc ha .mul
  | div o =>
    refine withValue_effect (o := o)
      (f := fun v t => if N.isZero v then raise .arithmeticFault s.pc t else t.setAcc (N.div t.acc v))
      (by simp [usesCell]) rfl fun a ho ha => ?_
    subst ho
    cases h : N.isZero (s.mem.getWith N a) with
    | true => exact .zeroDivisor ha h
    | false => exact .acc ha (.div h)
  | branch o =>
    exact branchIf_effect rfl (fun q h => .noTarget (q := q) (by simp [h]))
      (fun t h _ => .jump (t := t) (by simp [h])) (fun t _ h => by simp at h)
  | branchNeg o =>
    exact branchIf_effect rfl (fun q h => .noTarget (q := q) (by simp [h]))
      (fun t h hb => .jump (t := t) (.inr (.inl ⟨by rw [h], hb⟩)))
      (fun t h hb => .fallThrough (t := t) (.inl ⟨by rw [h], hb⟩))
  | branchZero o =>
    exact branchIf_effect rfl (fun q h => .noTarget (q := q) (by simp [h]))
      (fun t h hb => .jump (t := t) (.inr (.inr ⟨by rw [h], hb⟩)))
      (fun t h hb => .fallThrough (t := t) (.inr ⟨by rw [h], hb⟩))
  | halt o => exact ⟨_, rfl, .halt (.inl ⟨o, rfl⟩)⟩
  | unrecognised w => exact ⟨_, rfl, .halt (.inr ⟨w, rfl⟩)⟩

/-- What an instruction answers is one of the effects. -/
theorem effect_of_execWith {i : Instr V} {s t : State V} (h : execWith N i s = .next t) :
    Effect N s i t := by
  obtain ⟨u, hu, he⟩ := execWith_effect N i s
  rw [h, Host.Outcome.next.injEq] at hu
  exact hu ▸ he

/-- Every step has a next state, over any numerics. -/
theorem stepWith_next (N : Numerics V) (s : State V) : ∃ t, stepWith N s = .next t := by
  rcases stepBy_cases N (execWith N) s with ⟨-, h⟩ | ⟨-, -, h⟩ | ⟨w, -, -, h⟩
  · exact ⟨_, h⟩
  · exact ⟨_, h⟩
  · obtain ⟨t, ht, -⟩ := execWith_effect N (decodeWith N w) s
    exact ⟨t, h.trans ht⟩

omit [DecidableEq V]

/-! ## The hardware: NUM_Q -/

theorem exec_effect (i : Instr) (s : State) : ∃ t, exec i s = .next t ∧ Effect numQ s i t := by
  rw [exec_eq_with]
  exact execWith_effect numQ i s

theorem effect_of_exec {i : Instr} {s t : State} (h : exec i s = .next t) : Effect numQ s i t :=
  effect_of_execWith (exec_eq_with i s ▸ h)

theorem numQ_isZero_false {v : Value} : numQ.isZero v = false ↔ v ≠ 0 := by
  rw [← Bool.not_eq_true, numQ_isZero]

theorem numQ_isNeg_false {v : Value} : numQ.isNeg v = false ↔ ¬v < 0 := by
  rw [← Bool.not_eq_true, numQ_isNeg]

end Sys2Proof.Machine
end

