-- ==== Sys2Proof/Tests/Slice0.lean ====
section
/-! SUPPORT. The model's own tests. Expected values come from spec/95_test_vectors.md (the vector's name stands at
the test) or from the rule named there. The second half gives, for every statement with hypotheses, a concrete state
and operands that meet them. -/

namespace Sys2Proof.Tests

open Sys2Proof Sys2Proof.Machine

-- The kernel evaluations one after another: all of them in flight at once take more threads than the checker's
-- memory limit allows.
set_option Elab.async false

/-! ## WellFormed: a term each check refuses -/

theorem test_wf_refuses_three_digit_operand : (Instr.load (.address 100)).wf = false := by decide
theorem test_wf_takes_two_digit_operand : (Instr.load (.address 99)).wf = true := by decide
theorem test_wf_refuses_integer_as_fraction : (Instr.add (.fraction 7)).wf = false := by decide +kernel
theorem test_wf_refuses_fraction_of_100_and_more : (Instr.add (.fraction (201 / 2))).wf = false := by
  decide +kernel
theorem test_wf_refuses_negative_fraction : (Instr.branch (.fraction (-1 / 2))).wf = false := by
  decide +kernel
theorem test_wf_takes_fraction : (Instr.halt (.fraction (1 / 2))).wf = true := by decide +kernel
theorem test_wf_refuses_recognised_word : (Instr.unrecognised 2007).wf = false := by decide +kernel
theorem test_wf_refuses_recognised_fraction : (Instr.unrecognised (4015 / 2)).wf = false := by
  decide +kernel
theorem test_wf_takes_unrecognised_word : (Instr.unrecognised 9999).wf = true := by decide +kernel

/-- One ill-formed operand is refused in each of the twelve instructions that have one. -/
theorem test_wf_refuses_in_every_instruction :
    [Instr.read, .write, .load, .store, .add, .sub, .mul, .div, .branch, .branchNeg, .branchZero,
      .halt].all (fun c => !(c (.address 100)).wf) = true := by decide

/-! ## Decode: one word a constructor, digit by digit from the opcode map (R52), V-D1 to V-D34 -/

theorem test_decode_read : decode 1099 = .read (.address 99) := by decide +kernel
theorem test_decode_write : decode 1100 = .write (.address 0) := by decide +kernel
theorem test_decode_load : decode 2007 = .load (.address 7) := by decide +kernel
theorem test_decode_store : decode 2199 = .store (.address 99) := by decide +kernel
theorem test_decode_add : decode 3008 = .add (.address 8) := by decide +kernel
theorem test_decode_sub : decode 3108 = .sub (.address 8) := by decide +kernel
theorem test_decode_mul : decode 3208 = .mul (.address 8) := by decide +kernel
theorem test_decode_div : decode 3308 = .div (.address 8) := by decide +kernel
theorem test_decode_branch : decode 4010 = .branch (.address 10) := by decide +kernel
theorem test_decode_branchNeg : decode 4107 = .branchNeg (.address 7) := by decide +kernel
theorem test_decode_branchZero : decode 4209 = .branchZero (.address 9) := by decide +kernel
theorem test_decode_halt : decode 4399 = .halt (.address 99) := by decide +kernel
theorem test_decode_unrecognised : decode 3400 = .unrecognised 3400 := by decide +kernel
/-- V-D29: truncation, (-10, -7). -/
theorem test_decode_negative : opc (-1007) = some (-10) ∧ opd (-1007) = some (-7) := by decide +kernel
/-- V-D30: opcode 20, operand 15/2. -/
theorem test_decode_fraction : decode (4015 / 2) = .load (.fraction (15 / 2)) := by decide +kernel
/-- V-D32, V-D33. -/
theorem test_decode_unrecognised_fractions :
    decode (1 / 2) = .unrecognised (1 / 2) ∧ decode (-4015 / 2) = .unrecognised (-4015 / 2) := by
  decide +kernel
/-- The machine's own reading of the table's words (entry 11). -/
theorem test_decodeTableWord : decodeTableWord 16 4300 = some (.halt (.address 0)) := by decide +kernel

/-! ## One step from a small state -/

/-- A running machine: the capacity, the image, the accumulator and the tokens on offer. -/
def start (cap : Nat) (image : List (Nat × Value)) (acc : Value) (pc : Nat) (ts : List Token) : State :=
  { State.reset with
    mem := image.foldl (fun m c => m.set c.1 c.2) (Memory.zeroFilled cap)
    acc := acc
    pc := pc
    rs := .running
    inputs := ts }

/-- The state a step leaves; every step has one (`step_nextOf`). -/
def nextOf (s : State) : State :=
  match step s with
  | .next t => t
  | .fault _ => s
  | .refused _ => s

theorem step_nextOf (s : State) : step s = .next (nextOf s) := by
  have h : ∃ t, step s = .next t := by
    rcases step_cases s with ⟨-, h⟩ | ⟨-, -, h⟩ | ⟨w, -, -, h⟩
    · exact ⟨_, h⟩
    · exact ⟨_, h⟩
    · obtain ⟨t, ht, -⟩ := exec_effect (decode w) s
      exact ⟨t, h.trans ht⟩
  obtain ⟨t, h⟩ := h
  simp [nextOf, h]

/-- The fault status, run state and `pc` of a state. -/
def status (s : State) : Option FaultRecord × RunState × Nat := (s.fault, s.rs, s.pc)

/-- V-IO1. -/
theorem test_read :
    let t := nextOf (start 100 [(0, 1007)] 0 0 [.num 5])
    t.mem.get 7 = 5 ∧ t.inputs = [] ∧ status t = (none, .running, 1) ∧ t.out = [] := by decide +kernel
/-- V-IO3. -/
theorem test_read_malformed :
    let t := nextOf (start 100 [(0, 1005), (5, 77)] 0 0 [.malformed])
    t.mem.get 5 = 0 ∧ t.diag = [.warnMalformedInput 0] ∧ status t = (none, .running, 1) := by
  decide +kernel
/-- V-IO4. -/
theorem test_read_waits :
    nextOf (start 100 [(0, 1005)] 0 0 []) = start 100 [(0, 1005)] 0 0 [] := by decide +kernel
/-- V-IO10. -/
theorem test_read_fault_keeps_token :
    let t := nextOf (start 50 [(0, 1060)] 0 0 [.num 5])
    status t = (some ⟨.addressFault, 0⟩, .halted, 1) ∧ t.inputs = [.num 5] := by decide +kernel
/-- V-IO7, V-IO8. -/
theorem test_write :
    (nextOf (start 100 [(0, 1105), (5, 42)] 0 0 [])).out = [42] ∧
    (nextOf (start 100 [(0, 1105)] 0 0 [])).out = [0] := by decide +kernel
/-- V-IO11. -/
theorem test_write_fault_emits_nothing :
    let t := nextOf (start 50 [(0, 1160)] 0 0 [])
    status t = (some ⟨.addressFault, 0⟩, .halted, 1) ∧ t.out = [] := by decide +kernel
/-- V-LS3, V-LS4. -/
theorem test_load :
    (nextOf (start 100 [(0, 2000)] 9 0 [])).acc = 2000 ∧
    (nextOf (start 100 [(0, 2007), (7, -7 / 4)] 0 0 [])).acc = -7 / 4 := by decide +kernel
/-- V-LS9. -/
theorem test_load_fault :
    let t := nextOf (start 50 [(0, 2060)] 9 0 [])
    status t = (some ⟨.addressFault, 0⟩, .halted, 1) ∧ t.acc = 9 := by decide +kernel
/-- V-LS6. -/
theorem test_store :
    let t := nextOf (start 100 [(0, 2109)] (7 / 2) 0 [])
    t.mem.get 9 = 7 / 2 ∧ t.mem.get 0 = 2109 ∧ t.acc = 7 / 2 ∧ t.pc = 1 := by decide +kernel
/-- V-LS10. -/
theorem test_store_fault :
    let t := nextOf (start 50 [(0, 2160)] 9 0 [])
    status t = (some ⟨.addressFault, 0⟩, .halted, 1) ∧ t.mem = (start 50 [(0, 2160)] 9 0 []).mem := by
  decide +kernel
/-- V-A2, V-A26. -/
theorem test_add :
    (nextOf (start 100 [(0, 3008), (8, -8)] 5 0 [])).acc = -3 ∧
    (nextOf (start 100 [(0, 3000)] 1 0 [])).acc = 3001 := by decide +kernel
/-- V-A6, V-A10: the accumulator minus the cell. -/
theorem test_sub :
    (nextOf (start 100 [(0, 3108), (8, 8)] 5 0 [])).acc = -3 ∧
    (nextOf (start 100 [(0, 3108), (8, 1 / 4)] 0 0 [])).acc = -1 / 4 := by decide +kernel
/-- V-A13, V-A15. -/
theorem test_mul :
    (nextOf (start 100 [(0, 3208), (8, -2)] (-7) 0 [])).acc = 14 ∧
    (nextOf (start 100 [(0, 3208), (8, 1 / 4)] 6 0 [])).acc = 3 / 2 := by decide +kernel
/-- V-A18, V-A22. -/
theorem test_div :
    (nextOf (start 100 [(0, 3308), (8, 2)] (-7) 0 [])).acc = -7 / 2 ∧
    (nextOf (start 100 [(0, 3308), (8, 1 / 4)] 6 0 [])).acc = 24 := by decide +kernel
/-- V-A24 and V-A27: the zero cell, and the address fault before it. -/
theorem test_div_faults :
    status (nextOf (start 100 [(0, 3308)] 7 0 [])) = (some ⟨.arithmeticFault, 0⟩, .halted, 1) ∧
    (nextOf (start 100 [(0, 3308)] 7 0 [])).acc = 7 ∧
    status (nextOf (start 50 [(0, 3360)] 7 0 [])) = (some ⟨.addressFault, 0⟩, .halted, 1) := by
  decide +kernel
/-- V-C1, V-C17: a target outside memory is taken, and its fetch faults with `pc` unchanged. -/
theorem test_branch :
    (nextOf (start 100 [(6, 4010)] 0 6 [])).pc = 10 ∧
    status (nextOf (nextOf (start 50 [(0, 4060)] 0 0 []))) = (some ⟨.addressFault, 60⟩, .halted, 60) := by
  decide +kernel
/-- V-C4, V-C6. -/
theorem test_branchNeg :
    (nextOf (start 100 [(3, 4107)] 0 3 [])).pc = 4 ∧
    (nextOf (start 100 [(3, 4107)] (-1 / 1000) 3 [])).pc = 7 := by decide +kernel
/-- R50: a fractional operand faults though the branch would not be taken. -/
theorem test_branchNeg_fraction :
    status (nextOf (start 100 [(3, 8215 / 2)] 1 3 [])) = (some ⟨.addressFault, 3⟩, .halted, 4) := by
  decide +kernel
/-- V-C7, V-C10. -/
theorem test_branchZero :
    (nextOf (start 100 [(2, 4209)] 0 2 [])).pc = 9 ∧
    (nextOf (start 100 [(2, 4209)] (1 / 1000000) 2 [])).pc = 3 := by decide +kernel
/-- V-C12, V-C13, V-D31. -/
theorem test_halt :
    status (nextOf (start 50 [(0, 4399)] 0 0 [])) = (none, .halted, 1) ∧
    status (nextOf (start 100 [(99, 4300)] 0 99 [])) = (none, .halted, 100) ∧
    status (nextOf (start 100 [(3, 8601 / 2)] 0 3 [])) = (none, .halted, 4) := by decide +kernel
/-- V-C14, V-C15, S8. -/
theorem test_unrecognised :
    status (nextOf (start 100 [] 0 0 [])) = (none, .halted, 1) ∧
    status (nextOf (start 100 [(0, -1007)] 0 0 [])) = (none, .halted, 1) ∧
    status (nextOf (start 100 [(0, 9999)] 0 0 [])) = (none, .halted, 1) := by decide +kernel
/-- V-F1, its third step. -/
theorem test_fetch_fault :
    let t := nextOf (start 100 [] 4099 100 [])
    status t = (some ⟨.addressFault, 100⟩, .halted, 100) ∧ t.diag = [.fault .addressFault 100] ∧
      t.acc = 4099 := by decide +kernel
/-- V-R1. -/
theorem test_reset : status State.reset = (none, .ready, 0) ∧ State.reset.acc = 0 := by decide
/-- V-R4: `start` clears the fault, overrides the host's `pc` and keeps the accumulator. -/
theorem test_start :
    let s := { start 100 [] 7 3 [] with
      rs := .halted, fault := some ⟨.arithmeticFault, 1⟩, commands := [.start] }
    status (nextOf s) = (none, .running, 0) ∧ (nextOf s).acc = 7 ∧ (nextOf s).commands = [] := by
  decide +kernel
/-- R31: an access outside memory, on either side, is refused with no effect. -/
theorem test_host_access_refused :
    ∀ c ∈ [HostCommand.write 100 5, .write (-1) 5, .read 100, .read (-1)],
      nextOf { State.reset with commands := [c] } = { State.reset with replies := [.refused] } := by
  decide +kernel
/-- V-R5: a running, waiting machine leaves the host's acts pending. -/
theorem test_host_waits_while_running :
    (nextOf { start 100 [(0, 1005)] 0 0 [] with commands := [.setAcc 1] }).acc = 0 := by decide +kernel
/-- R87. -/
theorem test_cause_codes :
    causeCode none = 0 ∧ causeCode (some ⟨.addressFault, 3⟩) = 1 ∧
      causeCode (some ⟨.arithmeticFault, 3⟩) = 2 := by decide
/-- Writing what an unlisted cell reads as removes the entry (entry 2). -/
theorem test_memory_canonical :
    ((Memory.zeroFilled 100).set 5 7).set 5 0 = Memory.zeroFilled 100 := by decide +kernel
/-- The word placed from outside is the one the next step runs (entry 11): from reset, HALT. -/
theorem test_withFetchWord :
    status (nextOf (State.reset.withFetchWord 16 4300)) = (none, .halted, 1) := by decide +kernel

/-! ## Witnesses: what meets the hypotheses of each statement -/

/-- A running machine about to STORE its accumulator 4300 into the next cell. -/
def storing : State := start 100 [(0, 2101), (8, 3)] 4300 0 []
/-- A running machine waiting on READ 05. -/
def waitingRead : State := start 100 [(0, 1005)] 0 0 []
/-- A running machine whose READ 05 has a number on offer. -/
def reading : State := start 100 [(0, 1005)] 0 0 [.num 5]
/-- A running machine about to divide by the zero cell 8. -/
def dividing : State := start 100 [(0, 3308)] 7 0 []
/-- A running machine about to LOAD its own word over the accumulator 9. -/
def loading : State := start 100 [(0, 2000)] 9 0 []
/-- A halted machine after a fault, with one pending act of the host. -/
def hosted (c : HostCommand) : State :=
  { start 100 [(8, 3)] 7 2 [] with
    rs := .halted
    fault := some ⟨.arithmeticFault, 1⟩
    diag := [.fault .arithmeticFault 1]
    commands := [c] }

theorem storing_wf : storing.mem.wf := by decide +kernel
theorem reading_wf : reading.mem.wf := by decide +kernel

theorem witness_OpcodeMapSelectsRowsByOpcode : 43 ∈ recognisedOpcodes ∧ 99 ≤ 99 := by decide
theorem witness_OpcodesOutsideTheSetHalt :
    (∀ c ∈ recognisedOpcodes, opc 4400 ≠ some (c : ℤ)) ∧ ∀ c ∈ recognisedOpcodes, opc 999 ≠ some (c : ℤ) := by
  decide +kernel
theorem witness_NegativeAndLargeWordsAreUnrecognised : 0 < 1 ∧ 10000 ≤ 10000 := by decide
theorem witness_NonIntegerWordsFaultOrHalt :
    (8601 / 2 : Value).den ≠ 1 ∧ trunc (8601 / 2 / 100) = 43 ∧ (1 / 2 : Value).den ≠ 1 ∧
    (∀ c ∈ recognisedOpcodes, trunc (1 / 2 / 100) ≠ (c : ℤ)) ∧ (8215 / 2 : Value).den ≠ 1 ∧
    41 ∈ recognisedOpcodes ∧ trunc (8215 / 2 / 100) = 41 := by decide +kernel
theorem witness_DecodeOfEncode :
    (Instr.store (.address 99)).wf = true ∧ (Instr.read (.fraction (1 / 2))).wf = true ∧
    (Instr.unrecognised (-1)).wf = true := by decide +kernel
theorem witness_NumQMeetsTheLaws : (0 : ℤ) ≤ 9999 ∧ (9999 : ℤ) < 10000 ∧ (2 : Value) ≠ 0 := by
  decide +kernel
theorem witness_MemoryReadsTheLastWrite :
    storing.mem.wf ∧ memWrite storing.mem 99 5 = some (storing.mem.set 99 5) ∧ 98 ≠ 99 := by
  decide +kernel
theorem witness_CanonicalMemoriesReadingAlikeAreEqual :
    storing.mem.wf ∧ ((storing.mem.set 5 1).set 5 0).wf ∧
    storing.mem.capacity = ((storing.mem.set 5 1).set 5 0).capacity ∧
    ∀ a, storing.mem.get a = ((storing.mem.set 5 1).set 5 0).get a := by
  refine ⟨storing_wf, by decide +kernel, rfl, fun a => ?_⟩
  rw [show (storing.mem.set 5 1).set 5 0 = storing.mem by decide +kernel]
/-- At the first address outside, and for no integer. -/
theorem witness_AccessOutsideMemoryFaults :
    namesNoCell (.address 100) storing.mem ∧ namesNoCell (.fraction (1 / 2)) storing.mem ∧
    99 < storing.mem.capacity ∧ storing.mem.capacity ≤ 100 :=
  ⟨namesNoCell_iff.mpr (by decide +kernel), namesNoCell_iff.mpr rfl, by decide +kernel, by decide +kernel⟩
theorem witness_ReadStoresTheNumberOffered :
    reading.mem.wf ∧ 99 < reading.mem.capacity ∧ reading.inputs = [.num 5] := by decide +kernel
theorem witness_MalformedInputStoresZeroAndWarns :
    let s := start 100 [(0, 1005), (5, 77)] 0 0 [.malformed]
    s.mem.wf ∧ 99 < s.mem.capacity ∧ s.inputs = [.malformed] := by decide +kernel
theorem witness_ReadWaitsForAToken : waitingRead.waiting :=
  ⟨rfl, rfl, 1005, .address 5, 5, by decide +kernel, by decide +kernel, by decide +kernel⟩
/-- For WRITE, LOAD, ADD, SUB and MUL: the last cell, and the first address outside. -/
theorem witness_CellOperands :
    99 < storing.mem.capacity ∧ namesNoCell (.address 100) storing.mem :=
  ⟨by decide +kernel, namesNoCell_iff.mpr (by decide +kernel)⟩
theorem witness_StoreCopiesAccIntoTheCell :
    storing.mem.wf ∧ 99 < storing.mem.capacity ∧ namesNoCell (.address 100) storing.mem :=
  ⟨storing_wf, witness_CellOperands⟩
theorem witness_LoadThenStoreIsANoOp : storing.mem.wf ∧ 99 < storing.mem.capacity :=
  ⟨storing_wf, by decide +kernel⟩
theorem witness_StoredWordIsFetchedNext :
    storing.mem.wf ∧ storing.rs = .running ∧ fetch storing = some 2101 ∧
    decode 2101 = .store (.address (storing.pc + 1)) ∧ storing.pc + 1 < storing.mem.capacity := by
  decide +kernel
/-- The non-zero cell 0, the zero cell 99, the first address outside. -/
theorem witness_DivDividesByTheCell :
    dividing.mem.get 0 ≠ 0 ∧ 99 < dividing.mem.capacity ∧ dividing.mem.get 99 = 0 ∧
    namesNoCell (.address 100) dividing.mem :=
  ⟨by decide +kernel, by decide +kernel, by decide +kernel, namesNoCell_iff.mpr (by decide +kernel)⟩
theorem witness_ArithmeticSequencesFoldLeftToRight :
    storing.rs = .running ∧ ∀ p ∈ [(FoldOp.add, 99), (.mul, 8), (.sub, 0)], p.2 < storing.mem.capacity := by
  decide +kernel
theorem witness_BranchAlwaysJumps : storing.rs = .running ∧ storing.mem.capacity ≤ 100 := by
  decide +kernel
theorem witness_BranchNegJumpsIffAccNegative :
    (start 100 [] (-1 / 1000) 0 []).acc < 0 ∧ ¬(start 100 [] 0 0 []).acc < 0 := by decide +kernel
theorem witness_BranchZeroJumpsIffAccZero :
    (start 100 [] 0 0 []).acc = 0 ∧ (start 100 [] (1 / 1000000) 0 []).acc ≠ 0 := by decide +kernel
theorem witness_BranchToItselfNeverEnds :
    let s := start 100 [(3, 4003)] 0 3 []
    s.rs = .running ∧ fetch s = some 4003 ∧ decode 4003 = .branch (.address s.pc) := by decide +kernel
theorem witness_StepRunsTheDecodedInstruction :
    let s := start 100 [(99, 4300)] 0 99 []
    s.rs = .running ∧ s.pc < s.mem.capacity := by decide +kernel
theorem witness_FetchOutsideMemoryFaults :
    let s := start 100 [] 0 100 []
    s.rs = .running ∧ s.mem.capacity ≤ s.pc := by decide +kernel
/-- A run that goes on, one that a fault ends, one that HALT ends, and the host's `start`. -/
theorem witness_RunStateTransitions :
    (storing.rs = .running ∧ storing.fault = none ∧ step storing = .next (nextOf storing) ∧
      (nextOf storing).rs = .running) ∧
    (dividing.rs = .running ∧ dividing.fault = none ∧ step dividing = .next (nextOf dividing) ∧
      (nextOf dividing).rs = .halted) ∧
    ((hosted .start).rs ≠ .running ∧ step (hosted .start) = .next (nextOf (hosted .start)) ∧
      (nextOf (hosted .start)).rs = .running) :=
  ⟨⟨rfl, rfl, step_nextOf _, by decide +kernel⟩, ⟨rfl, rfl, step_nextOf _, by decide +kernel⟩,
    by decide, step_nextOf _, by decide +kernel⟩
/-- A cell changed by STORE, by READ, by the host's write and by `reset`. -/
theorem witness_OnlyReadStoreAndTheHostWriteMemory :
    (storing.mem.wf ∧ step storing = .next (nextOf storing) ∧
      (nextOf storing).mem.get 1 ≠ storing.mem.get 1) ∧
    (reading.mem.wf ∧ step reading = .next (nextOf reading) ∧
      (nextOf reading).mem.get 5 ≠ reading.mem.get 5) ∧
    ((hosted (.write 99 1)).mem.wf ∧ step (hosted (.write 99 1)) = .next (nextOf (hosted (.write 99 1))) ∧
      (nextOf (hosted (.write 99 1))).mem.get 99 ≠ (hosted (.write 99 1)).mem.get 99) ∧
    ((hosted .reset).mem.wf ∧ step (hosted .reset) = .next (nextOf (hosted .reset)) ∧
      (nextOf (hosted .reset)).mem.get 8 ≠ (hosted .reset).mem.get 8) :=
  ⟨⟨storing_wf, step_nextOf _, by decide +kernel⟩, ⟨reading_wf, step_nextOf _, by decide +kernel⟩,
    ⟨by decide +kernel, step_nextOf _, by decide +kernel⟩, by decide +kernel, step_nextOf _,
    by decide +kernel⟩
/-- The accumulator changed by LOAD, by the host, and by `reset`. -/
theorem witness_OnlyLoadAndArithmeticWriteAcc :
    (step loading = .next (nextOf loading) ∧ (nextOf loading).acc ≠ loading.acc) ∧
    step (hosted (.setAcc 1)) = .next (nextOf (hosted (.setAcc 1))) ∧
      (nextOf (hosted (.setAcc 1))).acc ≠ (hosted (.setAcc 1)).acc ∧
    step (hosted .reset) = .next (nextOf (hosted .reset)) ∧
      (nextOf (hosted .reset)).acc ≠ (hosted .reset).acc :=
  ⟨⟨step_nextOf _, by decide +kernel⟩, step_nextOf _, by decide +kernel, step_nextOf _, by decide +kernel⟩
/-- For the statements about what one instruction answers: a jump, a wait, a token taken, a value emitted. -/
theorem witness_InstructionAnswers :
    exec (.branch (.address 99)) storing = .next { storing with pc := 99 } ∧
    exec (.read (.address 5)) waitingRead = .next waitingRead ∧
    (∃ t, exec (.read (.address 5)) reading = .next t ∧ t.inputs ≠ reading.inputs) ∧
    (∃ t, exec (.write (.address 8)) storing = .next t ∧ t.out ≠ storing.out) := by
  refine ⟨rfl, ?_, ⟨nextOf reading, ?_, by decide +kernel⟩, storing.advance.emit 3, ?_, by decide +kernel⟩
  · rfl
  · have h := step_nextOf reading
    rwa [step_of_fetch (w := 1005) rfl (by decide +kernel),
      show decode 1005 = .read (.address 5) by decide +kernel] at h
  · have h : operandRead numQ (.address 8) storing.mem = some 3 := by decide +kernel
    simp [exec, execWrite, execWriteWith, withValue, h]
/-- For FaultsArePrecise, ArithmeticFaultExactlyOnZeroDivisor and AddressFaultCauses: both kinds of fault. -/
theorem witness_Faults :
    (dividing.fault = none ∧
      exec (.div (.address 8)) dividing = .next (dividing.afterFault .arithmeticFault) ∧
      (dividing.afterFault .arithmeticFault).fault = some ⟨.arithmeticFault, 0⟩ ∧
      8 < dividing.mem.capacity ∧ dividing.mem.get 8 = 0) ∧
    (dividing.fault = none ∧
      exec (.branchZero (.fraction (1 / 2))) dividing = .next (dividing.afterFault .addressFault) ∧
      (dividing.afterFault .addressFault).fault = some ⟨.addressFault, 0⟩) := by
  refine ⟨⟨rfl, ?_, rfl, by decide +kernel, by decide +kernel⟩, rfl, rfl, rfl⟩
  have h := step_nextOf dividing
  rw [step_of_fetch (w := 3308) rfl (by decide +kernel),
    show decode 3308 = .div (.address 8) by decide +kernel] at h
  rw [h, show nextOf dividing = dividing.afterFault .arithmeticFault by decide +kernel]
theorem witness_ResetAndStartEvents :
    (hosted .reset).rs ≠ .running ∧ (hosted .reset).commands = [.reset] ∧
    (hosted .start).rs ≠ .running ∧ (hosted .start).commands = [.start] := by decide +kernel
/-- Each access operation, at the last cell and at the first address outside on either side. -/
theorem witness_HostAccessOperations :
    ∀ c ∈ [HostCommand.write 99 1, .write 100 1, .write (-1) 1, .read 99, .read 100, .read (-1), .getAcc, .setAcc 1, .getPc, .setPc 5],
      (hosted c).rs ≠ .running ∧ (hosted c).mem.wf ∧ (hosted c).commands = [c] ∧
      99 < (hosted c).mem.capacity ∧ (hosted c).mem.capacity ≤ 100 := by decide +kernel
theorem witness_HostAndEngineTakeTurns :
    (storing.rs = .running ∧ step storing = .next (nextOf storing)) ∧
    State.reset.rs ≠ .running ∧ State.reset.commands = [] :=
  ⟨⟨rfl, step_nextOf _⟩, by decide, rfl⟩
/-- The invariant of a running machine about to store, and of a halted one with a fault on record. -/
theorem witness_StepKeepsTheInvariant :
    (storing.Inv ∧ step storing = .next (nextOf storing)) ∧
    ((hosted .start).Inv ∧ step (hosted .start) = .next (nextOf (hosted .start))) := by
  refine ⟨⟨⟨storing_wf, by decide +kernel, fun _ => by decide +kernel, fun h => absurd rfl h, fun f h => ?_⟩,
    step_nextOf _⟩, ⟨by decide +kernel, by decide +kernel, fun h => ?_, fun _ => rfl, fun f h => ?_⟩,
    step_nextOf _⟩
  · cases h
  · cases h
  · cases h
    rfl

/-! ## Another numerics

The machine takes any numerics (00_scope.md R7, R8). The integers are a second one: exact but for `div`, which
truncates, so a program without DIV does what it does under NUM_Q, and 7 / 2 gives 3 where NUM_Q gives 7/2. -/

/-- The integers as numerics. -/
def numInt : Numerics Int where
  zero := 0
  ofInt n := n
  add a b := a + b
  sub a b := a - b
  mul a b := a * b
  div a b := a.tdiv b
  isZero v := decide (v = 0)
  isNeg v := decide (v < 0)
  opc w := some (w.tdiv 100)
  opd w := some (w.tmod 100)

/-- A running machine over the integers. -/
def startInt (image : List (Nat × Int)) (acc : Int) (ts : List (Token Int)) : State Int :=
  { State.resetWith 100 numInt with
    mem := image.foldl (fun m c => m.setWith numInt c.1 c.2) (Memory.zeroFilled 100)
    acc := acc
    rs := .running
    inputs := ts }

/-- The state a step over the integers leaves. -/
def nextInt (s : State Int) : State Int :=
  match stepWith numInt s with
  | .next t => t
  | .fault _ => s
  | .refused _ => s

/-- V-IO1, V-A2 and V-A17, the last with the quotient truncated. -/
theorem test_integer_machine :
    (nextInt (startInt [(0, 1007)] 0 [.num 5])).mem.getWith numInt 7 = 5 ∧
    (nextInt (startInt [(0, 3008), (8, -8)] 5 [])).acc = -3 ∧
    (nextInt (startInt [(0, 3308), (8, 2)] 7 [])).acc = 3 := by decide +kernel
/-- V-A24: the zero divisor. -/
theorem test_integer_machine_faults :
    (nextInt (startInt [(0, 3308)] 7 [])).fault = some ⟨.arithmeticFault, 0⟩ := by decide +kernel

/-- The integers are lawful too: what `Numerics.Lawful` asks can be met, and not by NUM_Q alone. -/
theorem numInt_lawful : numInt.Lawful fun n => some ((n : ℝ) : EReal) where
  decodes n h0 _ := by
    simp [numInt, Int.tdiv_eq_ediv_of_nonneg h0, Int.tmod_eq_emod_of_nonneg h0]
  represents n _ _ := rfl
  zeroIsZero := by simp [numInt]
  isZeroIff v := by
    rw [Option.some.injEq, EReal.coe_eq_zero, Int.cast_eq_zero]
    simp [numInt]
  isNegIff v := by simp [numInt]
  exampleExact := by
    norm_num [numInt]
    rfl

/-- NUM_Q with an `isZero` that is always true is not lawful (R8 L2, "and for nothing else"). -/
theorem test_lawful_refuses_isZero_always (val : Value → Option EReal) :
    ¬({ numQ with isZero := fun _ => true } : Numerics Value).Lawful val := fun h => by
  have := (lawful_ofInt h (n := 1) (by norm_num) (by norm_num)).1
  simp at this
/-- NUM_Q with an `isNeg` that is always false is not lawful (R8 L3, "if and only if"). -/
theorem test_lawful_refuses_isNeg_never (val : Value → Option EReal) :
    ¬({ numQ with isNeg := fun _ => false } : Numerics Value).Lawful val := fun h => by
  have := (lawful_ofInt h (n := -1) (by norm_num) (by norm_num)).2
  simp at this

theorem witness_DecodeOfEncodeOverAnyNumerics :
    numQ.DecodesWords ∧ numInt.DecodesWords ∧ 99 < 100 ∧ 4400 < 10000 ∧ 4400 / 100 ∉ recognisedOpcodes :=
  ⟨numQ_lawful.decodes, numInt_lawful.decodes, by decide⟩
/-- A lawful numerics; an accumulator of each kind; the zero cell 99 and the cell 8, which is not zero. -/
theorem witness_TestsFollowTheValueOverLawfulNumerics :
    let val : Int → Option EReal := fun n => some ((n : ℝ) : EReal)
    let s := fun acc => startInt [(8, 2)] acc []
    numInt.Lawful val ∧ (∃ x, val (s (-1)).acc = some x ∧ x < 0) ∧
    (¬∃ x, val (s 0).acc = some x ∧ x < 0) ∧ val (s 0).acc = some 0 ∧ val (s (-1)).acc ≠ some 0 ∧
    99 < (s 0).mem.capacity ∧ val ((s 0).mem.getWith numInt 99) = some 0 ∧
    val ((s 0).mem.getWith numInt 8) ≠ some 0 ∧ (-10000 : ℤ) < -9999 ∧ (9999 : ℤ) < 10000 := by
  have h0 := numInt_lawful.isZeroIff
  have h1 := numInt_lawful.isNegIff
  refine ⟨numInt_lawful, (h1 (-1)).mp rfl, fun h => ?_, (h0 0).mp rfl, fun h => ?_, by decide +kernel,
    (h0 _).mp (by decide +kernel), fun h => ?_, by norm_num, by norm_num⟩
  · exact Bool.false_ne_true ((h1 0).mpr h)
  · exact Bool.false_ne_true ((h0 (-1)).mpr h)
  · exact absurd ((h0 _).mpr h) (by decide +kernel)
/-- No opcode of the set, HALT with and the others without an integer operand. -/
theorem witness_WordsWithoutOpcodeOrOperandOverAnyNumerics :
    (∀ c ∈ recognisedOpcodes, numInt.opc (-1007) ≠ some (c : ℤ)) ∧ numInt.opc 4399 = some 43 ∧
    numQ.opc (8215 / 2) = some 41 ∧ numQ.opd (8215 / 2) = none := by decide +kernel
/-- A cell, an operand that names none, a divisor of each kind, a token of each kind and none. -/
theorem witness_InstructionsOverAnyNumerics :
    (startInt [(8, 2)] 7 [.num 5]).mem.wfWith numInt ∧ 99 < (startInt [(8, 2)] 7 [.num 5]).mem.capacity ∧
    numInt.isZero ((startInt [(8, 2)] 7 [.num 5]).mem.getWith numInt 8) = false ∧
    numInt.isZero ((startInt [(8, 2)] 7 [.num 5]).mem.getWith numInt 99) = true ∧
    namesNoCell (.address 100) (startInt [(8, 2)] 7 [.num 5]).mem ∧
    (startInt [(8, 2)] 7 [.num 5]).inputs = [.num 5] ∧ (startInt [] 0 [.malformed]).inputs = [.malformed] ∧
    (startInt [] 0 []).inputs = [] :=
  ⟨by decide +kernel, by decide +kernel, by decide +kernel, by decide +kernel,
    namesNoCell_iff.mpr (by decide +kernel), rfl, rfl, rfl⟩
/-- `pc` inside memory, and at the first address outside. -/
theorem witness_StepOverAnyNumerics :
    (startInt [] 0 []).rs = .running ∧ (startInt [] 0 []).pc < (startInt [] 0 []).mem.capacity ∧
    ((startInt [] 0 []).setPc 100).rs = .running ∧
    ((startInt [] 0 []).setPc 100).mem.capacity ≤ ((startInt [] 0 []).setPc 100).pc := by decide +kernel
theorem witness_LoadThenStoreIsANoOpOverAnyNumerics :
    (startInt [(8, 2)] 7 []).mem.wfWith numInt ∧ 99 < (startInt [(8, 2)] 7 []).mem.capacity := by
  decide +kernel
theorem witness_ArithmeticSequencesFoldOverAnyNumerics :
    (startInt [(8, 2)] 7 []).rs = .running ∧
    ∀ p ∈ [(FoldOp.add, 99), (.mul, 8), (.sub, 0)], p.2 < (startInt [(8, 2)] 7 []).mem.capacity := by
  decide +kernel
/-- A STORE over a zero cell, and the step it takes. -/
theorem witness_StepKeepsMemoryCanonicalOverAnyNumerics :
    (startInt [(0, 2108)] 7 []).mem.wfWith numInt ∧
    stepWith numInt (startInt [(0, 2108)] 7 []) = .next (nextInt (startInt [(0, 2108)] 7 [])) ∧
    (nextInt (startInt [(0, 2108)] 7 [])).mem.getWith numInt 8 = 7 := by
  refine ⟨by decide +kernel, ?_, by decide +kernel⟩
  obtain ⟨t, h⟩ := stepWith_next numInt (startInt [(0, 2108)] 7 [])
  simp [nextInt, h]

end Sys2Proof.Tests
end

/-! ## Over any numerics (spec/00_scope.md section 5): what each instruction leaves -/

namespace Sys2Proof.Machine

section Instructions

variable {V : Type} {N : Numerics V} {s : State V} {a : Nat}

/-! ### The shared shapes -/

theorem withValue_of_noCell {o : Operand V} (h : namesNoCell o s.mem) (f : V → State V → State V) :
    withValue N o s f = .next (s.afterFault .addressFault) := by
  rw [withValue, operandRead_none.mpr (namesNoCell_iff.mp h)]
  rfl

/-- A branch with an integer operand: `pc` is the target or the fallthrough (R76 to R78). -/
theorem branchIf_address (taken : Bool) (t : Nat) (s : State V) :
    branchIf taken (.address t) s = .next { s with pc := if taken then t else s.pc + 1 } := by
  cases taken <;> rfl

/-- A sequence whose first instruction does not end the run. -/
theorem runInstrs_cons_of_next {ex : Instr V → State V → Result V} {i : Instr V} {t : State V}
    (h : ex i s = .next t) (ht : t.rs ≠ .halted) (rest : List (Instr V)) :
    runInstrs ex (i :: rest) s = runInstrs ex rest t := by
  simp only [runInstrs, h, if_neg ht]

/-! ### The tests by the value represented (laws L2 and L3) -/

theorem lawful_isNeg_false {val : V → Option EReal} (h : N.Lawful val) {v : V}
    (hv : ¬∃ x, val v = some x ∧ x < 0) : N.isNeg v = false := by
  rwa [← Bool.not_eq_true, h.isNegIff]

theorem lawful_isZero_false {val : V → Option EReal} (h : N.Lawful val) {v : V}
    (hv : val v ≠ some 0) : N.isZero v = false := by
  rwa [← Bool.not_eq_true, h.isZeroIff]

/-! ### Read after write -/

variable [DecidableEq V]

theorem get_set_self {m : Memory V} (h : m.wfWith N) (a : Nat) (v : V) :
    (m.setWith N a v).getWith N a = v := by
  rw [get_set h, if_pos rfl]

theorem get_set_of_ne {m : Memory V} (h : m.wfWith N) {a b : Nat} (hb : b ≠ a) (v : V) :
    (m.setWith N a v).getWith N b = m.getWith N b := by
  rw [get_set h, if_neg hb]

/-! ### The instructions on a cell of the memory -/

theorem execWith_write_of_lt (ha : a < s.mem.capacity) :
    execWith N (.write (.address a)) s =
      .next { s with out := s.out ++ [s.mem.getWith N a], pc := s.pc + 1 } :=
  withValue_of_lt ha _

/-- DIV: the divisor is tested, then the quotient or the ArithmeticFault (R75). -/
theorem execWith_div_of_lt (ha : a < s.mem.capacity) :
    execWith N (.div (.address a)) s =
      .next (if N.isZero (s.mem.getWith N a) then s.afterFault .arithmeticFault
        else { s with acc := N.div s.acc (s.mem.getWith N a), pc := s.pc + 1 }) := by
  rw [execWith, execDivWith, withValue_of_lt ha]
  rfl

/-- LOAD, ADD, SUB, MUL and DIV by a divisor that is not zero change the accumulator and `pc` alone. -/
theorem execWith_of_accResult {i : Instr V} {v : V} (ha : a < s.mem.capacity) (h : AccResult N s a i v) :
    execWith N i s = .next { s with acc := v, pc := s.pc + 1 } := by
  cases h with
  | load => exact withValue_of_lt ha _
  | add => exact withValue_of_lt ha _
  | sub => exact withValue_of_lt ha _
  | mul => exact withValue_of_lt ha _
  | div hz => rw [execWith_div_of_lt ha, hz, if_neg Bool.false_ne_true]

theorem execWith_div_of_isZero (ha : a < s.mem.capacity) (hz : N.isZero (s.mem.getWith N a) = true) :
    execWith N (.div (.address a)) s = .next (s.afterFault .arithmeticFault) := by
  rw [execWith_div_of_lt ha, if_pos hz]

theorem execWith_store_of_lt (ha : a < s.mem.capacity) :
    execWith N (.store (.address a)) s =
      .next { s with mem := s.mem.setWith N a s.acc, pc := s.pc + 1 } := by
  rw [execWith, execStoreWith, operandWrite_of_cell s.acc (operandCell_some.mpr ⟨rfl, ha⟩)]
  rfl

/-- READ with a token on offer (R66, R85). -/
theorem execWith_read_of_token {tok : Token V} {rest : List (Token V)} (ha : a < s.mem.capacity)
    (hi : s.inputs = tok :: rest) :
    execWith N (.read (.address a)) s = .next (receive N s.pc a tok (s.advance.setInputs rest)) := by
  simp only [execWith, execReadWith, operandCell_some.mpr ⟨rfl, ha⟩, hi]

/-- READ with no token on offer (R67). -/
theorem execWith_read_of_no_token (ha : a < s.mem.capacity) (hi : s.inputs = []) :
    execWith N (.read (.address a)) s = .next s := by
  simp only [execWith, execReadWith, operandCell_some.mpr ⟨rfl, ha⟩, hi]

/-- The eight instructions that use their operand as a cell address, where it names none (R35, R63). -/
theorem execWith_of_noCell {o : Operand V} {i : Instr V} (h : namesNoCell o s.mem) (hi : usesCell o i) :
    execWith N i s = .next (s.afterFault .addressFault) := by
  have hc := namesNoCell_iff.mp h
  rcases hi with rfl | rfl | rfl | rfl | rfl | rfl | rfl | rfl
  case inl => simp only [execWith, execReadWith, hc, abandon_eq]
  case inr.inr.inr.inl => simp only [execWith, execStoreWith, operandWrite_none.mpr hc, abandon_eq]
  all_goals
    simp only [execWith, execWriteWith, execLoadWith, execAddWith, execSubWith, execMulWith, execDivWith,
      withValue_of_noCell h]

/-! ### The branches -/

theorem execWith_branchNeg_address (t : Nat) (s : State V) :
    execWith N (.branchNeg (.address t)) s = .next { s with pc := if N.isNeg s.acc then t else s.pc + 1 } :=
  branchIf_address _ t s

theorem execWith_branchZero_address (t : Nat) (s : State V) :
    execWith N (.branchZero (.address t)) s =
      .next { s with pc := if N.isZero s.acc then t else s.pc + 1 } :=
  branchIf_address _ t s

/-- A branch with a non-integer operand faults, taken or not (R50; the spec's decision D10). -/
theorem execWith_branch_fraction {q : V} {i : Instr V}
    (hi : i ∈ [Instr.branch (.fraction q), .branchNeg (.fraction q), .branchZero (.fraction q)]) :
    execWith N i s = .next (s.afterFault .addressFault) := by
  simp only [List.mem_cons, List.not_mem_nil, or_false] at hi
  rcases hi with rfl | rfl | rfl <;> rfl

/-! ### One step -/

/-- A running engine whose `pc` is outside memory: the fetch's AddressFault, `pc` not incremented (R60, R102). -/
theorem stepBy_of_fetch_none {ex : Instr V → State V → Result V} (hr : s.rs = .running)
    (hf : fetchWith N s = none) : stepBy N ex s = .next (raise .addressFault s.pc s) := by
  simp only [stepBy, hr, hf]

/-! ### Sequences of ADD, SUB and MUL -/

theorem execWith_foldOp_of_lt (f : FoldOp) (ha : a < s.mem.capacity) :
    execWith N (f.instr a) s =
      .next { s with acc := f.applyWith N s.acc (s.mem.getWith N a), pc := s.pc + 1 } := by
  cases f with
  | add => exact execWith_of_accResult ha .add
  | sub => exact execWith_of_accResult ha .sub
  | mul => exact execWith_of_accResult ha .mul

/-- Law L5 of R8: the left-to-right fold, by induction on the sequence, from any accumulator. -/
theorem runInstrs_foldOps (ops : List (FoldOp × ℕ)) {s : State V} (hr : s.rs = .running)
    (hops : ∀ p ∈ ops, p.2 < s.mem.capacity) :
    runInstrs (execWith N) (ops.map fun p => p.1.instr p.2) s =
      .next { s with
        acc := ops.foldl (fun x p => p.1.applyWith N x (s.mem.getWith N p.2)) s.acc
        pc := s.pc + ops.length } := by
  induction ops generalizing s with
  | nil => rfl
  | cons p ops ih =>
    obtain ⟨hp, hops⟩ := List.forall_mem_cons.mp hops
    rw [List.map_cons, runInstrs_cons_of_next (execWith_foldOp_of_lt p.1 hp) (by simp [hr]), ih]
    · simp only [List.foldl_cons, List.length_cons, Nat.add_assoc, Nat.add_comm 1]
    · exact hr
    · exact hops

end Instructions

end Sys2Proof.Machine

namespace Sys2Proof

/-- The word of an opcode below 100 and a two-digit operand selects that opcode's row, where L1 holds. -/
theorem decodeWith_wordOf {V : Type} {N : Numerics V} (hN : N.DecodesWords) {a : ℕ} (ha : a < 100) {c : ℤ}
    (hc0 : 0 ≤ c) (hc : c < 100) :
    decodeWith N (wordOf N c (.address a)) = instrOf c (.address a) (wordOf N c (.address a)) := by
  have h := decodeWith_ofInt hN hc0 hc (Int.natCast_nonneg a) (by omega)
  rwa [Int.toNat_natCast] at h

/-- L1 gives the opcode of a word below 10000. -/
theorem opc_ofInt_of_lt {V : Type} {N : Numerics V} (hN : N.DecodesWords) {n : ℕ} (hn : n < 10000) :
    N.opc (N.ofInt n) = some ((n / 100 : ℕ) : ℤ) := by
  have h := (hN n (by omega) (by omega)).1
  rwa [← Nat.cast_ofNat (R := ℤ), ← Int.natCast_div] at h

end Sys2Proof

namespace Sys2Proof.Proofs

open Sys2Proof Sys2Proof.Machine

/-- Settles O51: L1 reads opcode and operand back from the word, and the opcode map is read row by row. -/
theorem decodeOfEncodeOverAnyNumerics : Obligations.DecodeOfEncodeOverAnyNumerics := by
  intro V N hN
  refine ⟨fun a ha => ?_, fun n hn hr => ?_⟩
  · have row (c : ℤ) (h0 : 0 ≤ c) (h : c < 100) := decodeWith_wordOf hN ha h0 h
    simp only [List.forall_mem_cons]
    exact ⟨row 10 (by decide) (by decide), row 11 (by decide) (by decide), row 20 (by decide) (by decide),
      row 21 (by decide) (by decide), row 30 (by decide) (by decide), row 31 (by decide) (by decide),
      row 32 (by decide) (by decide), row 33 (by decide) (by decide), row 40 (by decide) (by decide),
      row 41 (by decide) (by decide), row 42 (by decide) (by decide), row 43 (by decide) (by decide),
      List.forall_mem_nil _⟩
  · refine decodeWith_of_not_recognised fun d hd e => hr ?_
    rw [opc_ofInt_of_lt hN hn, Option.some.injEq, Nat.cast_inj] at e
    rwa [e]

/-- Settles O53: the lemma of each instruction, one clause after another. -/
theorem instructionsOverAnyNumerics : Obligations.InstructionsOverAnyNumerics := by
  intro V _ N s hw
  have written (a : ℕ) (v : V) : (s.mem.setWith N a v).capacity = s.mem.capacity ∧
      (s.mem.setWith N a v).getWith N a = v ∧
      ∀ b, b ≠ a → (s.mem.setWith N a v).getWith N b = s.mem.getWith N b :=
    ⟨rfl, get_set_self hw a v, fun b hb => get_set_of_ne hw hb v⟩
  refine ⟨fun a ha => ⟨execWith_write_of_lt ha, execWith_of_accResult ha .load,
      execWith_of_accResult ha .add, execWith_of_accResult ha .sub, execWith_of_accResult ha .mul,
      fun hz => execWith_of_accResult ha (.div hz), execWith_div_of_isZero ha,
      ⟨_, execWith_store_of_lt ha, written a s.acc⟩,
      fun v rest hi => ⟨_, execWith_read_of_token ha hi, written a v⟩,
      fun rest hi => ⟨_, execWith_read_of_token ha hi, written a N.zero⟩,
      execWith_read_of_no_token ha⟩,
    fun o ho i hi => execWith_of_noCell ho ?_,
    fun t => ⟨rfl, execWith_branchNeg_address t s, execWith_branchZero_address t s⟩,
    fun q i hi => execWith_branch_fraction hi, fun o => rfl, fun w => rfl⟩
  simpa only [usesCell, List.mem_cons, List.not_mem_nil, or_false] using hi

/-- Settles O55: every instruction answers one of the effects, and so every step has a next state. -/
theorem everyStepHasANextStateOverAnyNumerics : Obligations.EveryStepHasANextStateOverAnyNumerics := by
  intro V _ N
  refine ⟨fun i s => ?_, stepWith_next N⟩
  obtain ⟨t, ht, -⟩ := execWith_effect N i s
  exact ⟨t, ht⟩

/-- Settles O56: writing back what a cell reads as changes nothing, and a cell reads as what was written. -/
theorem loadThenStoreIsANoOpOverAnyNumerics : Obligations.LoadThenStoreIsANoOpOverAnyNumerics := by
  intro V _ N s a hw ha
  have hget := get_set_self hw a s.acc
  refine ⟨⟨_, execWith_of_accResult ha .load, ?_⟩,
    ⟨_, _, execWith_store_of_lt ha, execWith_of_accResult ha .load, hget, hget⟩⟩
  rw [execWith_store_of_lt, set_get hw]
  exact ha

/-- Settles O57: the fold of `runInstrs_foldOps`. -/
theorem arithmeticSequencesFoldOverAnyNumerics : Obligations.ArithmeticSequencesFoldOverAnyNumerics :=
  fun _ _ _ ops _ => runInstrs_foldOps ops

/-- Settles O9: L1 to L3 follow from NUM_Q being lawful; its operations are the rational ones. -/
theorem numQMeetsTheLaws : Obligations.NumQMeetsTheLaws := by
  refine ⟨fun n h0 h => ?_, fun v => ?_, fun a b => ⟨rfl, rfl, rfl, fun hb => ?_⟩, ?_⟩
  · obtain ⟨hopc, hopd⟩ := numQ_lawful.decodes n h0 h
    exact ⟨hopc, hopd, Int.ediv_mul_add_emod n 100⟩
  · exact ⟨numQ_isZero v, numQ_isNeg v, lawful_notBoth numQ_lawful v⟩
  · exact div_mul_cancel₀ a hb
  · norm_num

/-- Settles O50: the dispatch and the step agree at NUM_Q, the rest by definition. -/
theorem theHardwareIsTheMachineAtNumQ : Obligations.TheHardwareIsTheMachineAtNumQ :=
  ⟨exec_eq_with, step_eq_with, fun _ => rfl, fun _ => rfl, rfl, numQ_lawful⟩

/-- Settles O54: the fetch answers the cell at `pc` exactly when `pc` is inside memory. -/
theorem stepOverAnyNumerics : Obligations.StepOverAnyNumerics := by
  intro V _ N s hr
  exact ⟨fun hpc => stepBy_of_fetch hr (fetch_some.mpr ⟨hpc, rfl⟩),
    fun hpc => stepBy_of_fetch_none hr (fetch_none.mpr hpc)⟩

/-- Settles O59: L2 and L3 turn the tests of the branches and of DIV into the sign of the value represented. -/
theorem testsFollowTheValueOverLawfulNumerics : Obligations.TestsFollowTheValueOverLawfulNumerics := by
  intro V _ N val s h
  refine ⟨fun t hv => ?_, fun t hv => ?_, fun t hv => ?_, fun t hv => ?_,
    fun a ha hv => execWith_div_of_isZero ha ((h.isZeroIff _).mpr hv),
    fun a ha hv => execWith_of_accResult ha (.div (lawful_isZero_false h hv)),
    (lawful_zero h).1, (lawful_zero h).2, fun n h1 h2 => lawful_ofInt h h1 h2⟩
  · rw [execWith_branchNeg_address, if_pos ((h.isNegIff _).mpr hv)]
  · rw [execWith_branchNeg_address, lawful_isNeg_false h hv, if_neg Bool.false_ne_true]
  · rw [execWith_branchZero_address, if_pos ((h.isZeroIff _).mpr hv)]
  · rw [execWith_branchZero_address, lawful_isZero_false h hv, if_neg Bool.false_ne_true]

end Sys2Proof.Proofs

/-! ## The state (spec/10_state.md): everything one step can do, and what it keeps -/

namespace Sys2Proof

/-- Every word decodes to an instruction whose fields lie in the ranges of the encoding (R47, R50, R53). -/
theorem decode_wf (w : Value) : (decode w).wf = true := by
  by_cases h : ∃ c ∈ recognisedOpcodes, opc w = some (c : ℤ)
  · obtain ⟨c, hc, ho⟩ := h
    have hw := operandOf_wf (by exact_mod_cast recognised_pos hc) ho
    rw [decode_eq ho]
    rcases recognised_cases hc with rfl | rfl | rfl | rfl | rfl | rfl | rfl | rfl | rfl | rfl | rfl | rfl <;>
      exact hw
  · have hn : ∀ c ∈ recognisedOpcodes, opc w ≠ some (c : ℤ) := fun c hc ho => h ⟨c, hc, ho⟩
    rw [decode_of_not_recognised hn]
    exact isUnrecognisedWord_iff.mpr hn

/-- The target of a decoded branch has two digits (R47). -/
theorem decoded_branch_target_lt {w : Value} {n : ℕ}
    (h : decode w = .branch (.address n) ∨ decode w = .branchNeg (.address n) ∨
      decode w = .branchZero (.address n)) : n < 100 := by
  have hw := decode_wf w
  rcases h with h | h | h <;> rw [h] at hw <;> exact of_decide_eq_true hw

end Sys2Proof

namespace Sys2Proof.Machine

section StepEffect

variable {V : Type} {N : Numerics V} {s t : State V} {i : Instr V} {c : HostCommand V}

/-! ### What one act of the host and one step can do -/

/-- The acts that are answered, with the reply: a read, a refused address, the two get operations (R31). -/
inductive HostAnswer (N : Numerics V) (s : State V) : HostCommand V → HostReply V → Prop
  | read {a : ℕ} (ha : a < s.mem.capacity) : HostAnswer N s (.read a) (.value (s.mem.getWith N a))
  | readRefused {a : ℤ} (ha : a < 0 ∨ s.mem.capacity ≤ a) : HostAnswer N s (.read a) .refused
  | writeRefused {a : ℤ} {v : V} (ha : a < 0 ∨ s.mem.capacity ≤ a) : HostAnswer N s (.write a v) .refused
  | getAcc : HostAnswer N s .getAcc (.value s.acc)
  | getPc : HostAnswer N s .getPc (.count s.pc)

variable [DecidableEq V]

/-- Everything one act of the host can do (R27, R31). -/
inductive HostEffect (N : Numerics V) (s : State V) : HostCommand V → State V → Prop
  | reset : HostEffect N s .reset (resetEvent N s)
  | start : HostEffect N s .start (startEvent s)
  | write {a : ℕ} {v : V} (ha : a < s.mem.capacity) :
      HostEffect N s (.write a v) (s.setMem (s.mem.setWith N a v))
  | setAcc {v : V} : HostEffect N s (.setAcc v) (s.setAcc v)
  | setPc {n : ℕ} : HostEffect N s (.setPc n) (s.setPc n)
  | answer {c : HostCommand V} {r : HostReply V} (h : HostAnswer N s c r) : HostEffect N s c (s.answer r)

theorem perform_effect (N : Numerics V) (c : HostCommand V) (s : State V) :
    HostEffect N s c (perform N c s) := by
  cases c with
  | reset => exact .reset
  | start => exact .start
  | write a v =>
    cases hc : hostCell a s.mem with
    | some n =>
      obtain ⟨rfl, hn⟩ := hostCell_some.mp hc
      simp only [perform, hc]
      exact .write hn
    | none =>
      simp only [perform, hc]
      exact .answer (.writeRefused (hostCell_none.mp hc))
  | read a =>
    cases hc : hostCell a s.mem with
    | some n =>
      obtain ⟨rfl, hn⟩ := hostCell_some.mp hc
      simp only [perform, hc]
      exact .answer (.read hn)
    | none =>
      simp only [perform, hc]
      exact .answer (.readRefused (hostCell_none.mp hc))
  | getAcc => exact .answer .getAcc
  | setAcc v => exact .setAcc
  | getPc => exact .answer .getPc
  | setPc n => exact .setPc

/-- An act has one effect only. -/
theorem perform_of_hostEffect (h : HostEffect N s c t) : perform N c s = t := by
  cases h with
  | write ha => simp only [perform, hostCell_of_lt ha]
  | answer h =>
    cases h with
    | read ha => simp only [perform, hostCell_of_lt ha]
    | readRefused ha => simp only [perform, hostCell_none.mpr ha]
    | writeRefused ha => simp only [perform, hostCell_none.mpr ha]
    | getAcc => rfl
    | getPc => rfl
  | reset => rfl
  | start => rfl
  | setAcc => rfl
  | setPc => rfl

/-- Everything one step can do: nothing, the host's next act, the fetch's fault, or the decoded instruction. -/
inductive StepEffect (N : Numerics V) (s : State V) : State V → Prop
  | idle (hr : s.rs ≠ .running) (hc : s.commands = []) : StepEffect N s s
  | host {c : HostCommand V} {rest : List (HostCommand V)} {t : State V} (hr : s.rs ≠ .running)
      (hc : s.commands = c :: rest) (h : HostEffect N { s with commands := rest } c t) : StepEffect N s t
  | fetchFault (hr : s.rs = .running) (hf : fetchWith N s = none) :
      StepEffect N s (raise .addressFault s.pc s)
  | instr {w : V} {t : State V} (hr : s.rs = .running) (hf : fetchWith N s = some w)
      (h : Effect N s (decodeWith N w) t) : StepEffect N s t

theorem stepBy_of_not_running {ex : Instr V → State V → Result V} (hr : s.rs ≠ .running) :
    stepBy N ex s = .next (hostTurn N s) := by
  cases h : s.rs with
  | running => exact absurd h hr
  | ready => simp only [stepBy, h]
  | halted => simp only [stepBy, h]

theorem hostTurn_of_nil (hc : s.commands = []) : hostTurn N s = s := by
  simp only [hostTurn, hc]

theorem hostTurn_of_cons {rest : List (HostCommand V)} (hc : s.commands = c :: rest) :
    hostTurn N s = perform N c { s with commands := rest } := by
  simp only [hostTurn, hc]

theorem stepEffect_of_stepWith (h : stepWith N s = .next t) : StepEffect N s t := by
  rcases stepBy_cases N (execWith N) s with ⟨hr, hv⟩ | ⟨hr, hf, hv⟩ | ⟨w, hr, hf, hv⟩
  · obtain rfl : hostTurn N s = t := Host.Outcome.next.inj (hv.symm.trans h)
    cases hc : s.commands with
    | nil => rw [hostTurn_of_nil hc]; exact .idle hr hc
    | cons c rest => rw [hostTurn_of_cons hc]; exact .host hr hc (perform_effect N c _)
  · obtain rfl : raise .addressFault s.pc s = t := Host.Outcome.next.inj (hv.symm.trans h)
    exact .fetchFault hr hf
  · exact .instr hr hf (effect_of_execWith (hv.symm.trans h))

/-! ### Memory -/

/-- An instruction writes at most one cell, by STORE or by READ (R66, R70). -/
theorem effect_mem (h : Effect N s i t) :
    t.mem = s.mem ∨ ∃ a v, a < s.mem.capacity ∧ t.mem = s.mem.setWith N a v ∧
      ((i = .store (.address a) ∧ v = s.acc) ∨
       (i = .read (.address a) ∧ ∃ tok rest, s.inputs = tok :: rest ∧ v = tok.stored N)) := by
  cases h
  case store a ha => exact .inr ⟨a, s.acc, ha, rfl, .inl ⟨rfl, rfl⟩⟩
  case read a tok rest ha hi =>
    exact .inr ⟨a, tok.stored N, ha, receive_mem .., .inr ⟨rfl, tok, rest, hi, rfl⟩⟩
  all_goals exact .inl rfl

/-- The host writes one cell by its write, and every cell by `reset` (R31, R96). -/
theorem hostEffect_mem (h : HostEffect N s c t) :
    t.mem = s.mem ∨ (c = .reset ∧ t.mem = Memory.zeroFilled s.mem.capacity) ∨
      ∃ (a : ℕ) (v : V), a < s.mem.capacity ∧ c = .write a v ∧ t.mem = s.mem.setWith N a v := by
  cases h
  case reset => exact .inr (.inl ⟨rfl, rfl⟩)
  case write a v ha => exact .inr (.inr ⟨a, v, ha, rfl, rfl⟩)
  all_goals exact .inl rfl

theorem effect_mem_wf (hw : s.mem.wfWith N) (h : Effect N s i t) :
    t.mem.wfWith N ∧ t.mem.capacity = s.mem.capacity := by
  rcases effect_mem h with e | ⟨a, v, ha, e, -⟩ <;> rw [e]
  · exact ⟨hw, rfl⟩
  · exact ⟨set_wf hw ha v, rfl⟩

theorem hostEffect_mem_wf (hw : s.mem.wfWith N) (h : HostEffect N s c t) :
    t.mem.wfWith N ∧ t.mem.capacity = s.mem.capacity := by
  rcases hostEffect_mem h with e | ⟨-, e⟩ | ⟨a, v, ha, -, e⟩ <;> rw [e]
  · exact ⟨hw, rfl⟩
  · exact ⟨zeroFilled_wf _, rfl⟩
  · exact ⟨set_wf hw ha v, rfl⟩

/-- The canonical form and the length of the array are kept (R14). -/
theorem stepEffect_mem_wf (hw : s.mem.wfWith N) (h : StepEffect N s t) :
    t.mem.wfWith N ∧ t.mem.capacity = s.mem.capacity := by
  cases h with
  | idle => exact ⟨hw, rfl⟩
  | @host c rest _ _ _ h => exact hostEffect_mem_wf (s := { s with commands := rest }) hw h
  | fetchFault => exact ⟨hw, rfl⟩
  | instr _ _ h => exact effect_mem_wf hw h

/-- A cell that reads otherwise after a write is the cell written. -/
theorem eq_of_get_set_ne {m : Memory V} (hw : m.wfWith N) {a b : ℕ} {v : V}
    (h : (m.setWith N a v).getWith N b ≠ m.getWith N b) : b = a :=
  by_contra fun hb => h (get_set_of_ne hw hb v)

/-! ### Accumulator, `pc` and run state -/

/-- Only LOAD and the arithmetic write the accumulator (R15). -/
theorem effect_acc (h : Effect N s i t) :
    t.acc = s.acc ∨ ∃ a, a < s.mem.capacity ∧ AccResult N s a i t.acc := by
  cases h
  case acc a v ha h => exact .inr ⟨a, ha, h⟩
  case read => exact .inl (receive_acc ..)
  all_goals exact .inl rfl

omit [DecidableEq V] in
theorem accResult_instr {a : ℕ} {v : V} (h : AccResult N s a i v) :
    i = .load (.address a) ∨ i = .add (.address a) ∨ i = .sub (.address a) ∨ i = .mul (.address a) ∨
      i = .div (.address a) := by
  cases h <;> simp

/-- Only the host's `host_set_acc` and `reset` write the accumulator outside a run (R31, D8). -/
theorem hostEffect_acc (h : HostEffect N s c t) :
    t.acc = s.acc ∨ c = .setAcc t.acc ∨ (c = .reset ∧ t.acc = N.zero) := by
  cases h
  case reset => exact .inr (.inr ⟨rfl, rfl⟩)
  case setAcc => exact .inr (.inl rfl)
  all_goals exact .inl rfl

/-- `pc` after an instruction: one past it, a branch's target, or unmoved by a READ that waits (R17, R61, R67). -/
theorem effect_pc (h : Effect N s i t) :
    t.pc = s.pc + 1 ∨
    (∃ n, (i = .branch (.address n) ∨ i = .branchNeg (.address n) ∨ i = .branchZero (.address n)) ∧
      t.pc = n) ∨
    (∃ o, i = .read o ∧ s.inputs = [] ∧ t = s) := by
  cases h
  case read => exact .inl (receive_pc ..)
  case wait hi => exact .inr (.inr ⟨_, rfl, hi, rfl⟩)
  case jump n hi => exact .inr (.inl ⟨n, hi.imp id (Or.imp And.left And.left), rfl⟩)
  all_goals exact .inl rfl

/-- An instruction goes on with the run, ends it by a fault, or is HALT or unrecognised (R20). -/
theorem effect_runState (h : Effect N s i t) :
    (t.rs = s.rs ∧ t.fault = s.fault) ∨ (∃ k, t = s.afterFault k) ∨
    (t.rs = .halted ∧ t.fault = s.fault ∧ ((∃ o, i = .halt o) ∨ ∃ w, i = .unrecognised w)) := by
  cases h
  case noCell => exact .inr (.inl ⟨_, rfl⟩)
  case noTarget => exact .inr (.inl ⟨_, rfl⟩)
  case zeroDivisor => exact .inr (.inl ⟨_, rfl⟩)
  case read => exact .inl ⟨receive_rs .., receive_fault ..⟩
  case halt hi => exact .inr (.inr ⟨rfl, rfl, hi⟩)
  all_goals exact .inl ⟨rfl, rfl⟩

/-- Of the host's acts `reset` and `start` alone touch run state, fault and reports (R20, R96, R98). -/
theorem hostEffect_runState (h : HostEffect N s c t) :
    (t.rs = s.rs ∧ t.fault = s.fault ∧ t.diag = s.diag) ∨
    (c = .reset ∧ t.rs = .ready ∧ t.fault = none) ∨
    (c = .start ∧ t.rs = .running ∧ t.pc = 0 ∧ t.fault = none) := by
  cases h
  case reset => exact .inr (.inl ⟨rfl, rfl, rfl⟩)
  case start => exact .inr (.inr ⟨rfl, rfl, rfl, rfl⟩)
  all_goals exact .inl ⟨rfl, rfl, rfl⟩

/-! ### The same instruction from two states that agree -/

/-- An instruction has one effect only. -/
theorem execWith_of_effect (h : Effect N s i t) : execWith N i s = .next t := by
  cases h with
  | noCell hn hi => exact execWith_of_noCell (namesNoCell_iff.mpr hn) hi
  | noTarget hi => exact execWith_branch_fraction (by simpa using hi)
  | zeroDivisor ha hz => exact execWith_div_of_isZero ha hz
  | wait ha hi => exact execWith_read_of_no_token ha hi
  | read ha hi => exact execWith_read_of_token ha hi
  | write ha => exact execWith_write_of_lt ha
  | acc ha h => exact execWith_of_accResult ha h
  | store ha => exact execWith_store_of_lt ha
  | jump hi =>
    rcases hi with rfl | ⟨rfl, hb⟩ | ⟨rfl, hb⟩
    · rfl
    · rw [execWith_branchNeg_address, if_pos hb]; rfl
    · rw [execWith_branchZero_address, if_pos hb]; rfl
  | fallThrough hi =>
    rcases hi with ⟨rfl, hb⟩ | ⟨rfl, hb⟩
    · rw [execWith_branchNeg_address, hb, if_neg Bool.false_ne_true]; rfl
    · rw [execWith_branchZero_address, hb, if_neg Bool.false_ne_true]; rfl
  | halt hi => rcases hi with ⟨o, rfl⟩ | ⟨w, rfl⟩ <;> rfl

omit [DecidableEq V]

/-- The state with another fault status, other records, and another host's side. -/
def State.withRecords (f : Option FaultRecord) (o : List V) (d : List DiagEvent) (c : List (HostCommand V))
    (r : List (HostReply V)) (s : State V) : State V :=
  { s with fault := f, out := o, diag := d, commands := c, replies := r }

/-- The moves from `s` to `t` and from `s'` to `u` make states that agree on what instructions read, add the same to
the records, record the same fault or none, and leave the host's side alone. A field not given is that of a move
that adds nothing. -/
structure SameMove (s t s' u : State V) : Prop where
  mem : u.mem = t.mem := by rfl
  acc : u.acc = t.acc := by rfl
  pc : u.pc = t.pc := by rfl
  rs : u.rs = t.rs := by rfl
  inputs : u.inputs = t.inputs := by rfl
  fault : u.fault = t.fault ∨ t.fault = s.fault ∧ u.fault = s'.fault := by exact .inr ⟨rfl, rfl⟩
  out : ∃ os, t.out = s.out ++ os ∧ u.out = s'.out ++ os := by
    exact ⟨[], (List.append_nil _).symm, (List.append_nil _).symm⟩
  diag : ∃ ds, t.diag = s.diag ++ ds ∧ u.diag = s'.diag ++ ds := by
    exact ⟨[], (List.append_nil _).symm, (List.append_nil _).symm⟩
  commands : t.commands = s.commands ∧ u.commands = s'.commands := by exact ⟨rfl, rfl⟩
  replies : t.replies = s.replies ∧ u.replies = s'.replies := by exact ⟨rfl, rfl⟩

variable (f : Option FaultRecord) (o : List V) (d : List DiagEvent) (cs : List (HostCommand V))
  (r : List (HostReply V))

theorem sameMove_afterFault (k : FaultKind) (s : State V) :
    SameMove s (s.afterFault k) (s.withRecords f o d cs r) ((s.withRecords f o d cs r).afterFault k) where
  fault := .inl rfl
  diag := ⟨[_], rfl, rfl⟩

theorem accResult_withRecords {a : ℕ} {v : V} (h : AccResult N s a i v) :
    AccResult N (s.withRecords f o d cs r) a i v := by
  cases h with
  | load => exact .load
  | add => exact .add
  | sub => exact .sub
  | mul => exact .mul
  | div hz => exact .div hz

variable [DecidableEq V]

/-- An instruction never reads the fault status, the records or the host's side (R21, R23). -/
theorem effect_withRecords (h : Effect N s i t) :
    ∃ u, Effect N (s.withRecords f o d cs r) i u ∧ SameMove s t (s.withRecords f o d cs r) u := by
  cases h with
  | noCell hn hi => exact ⟨_, .noCell hn hi, sameMove_afterFault ..⟩
  | noTarget hi => exact ⟨_, .noTarget hi, sameMove_afterFault ..⟩
  | zeroDivisor ha hz => exact ⟨_, .zeroDivisor ha hz, sameMove_afterFault ..⟩
  | wait ha hi => exact ⟨_, .wait ha hi, {}⟩
  | @read a tok rest ha hi =>
    refine ⟨_, .read ha hi, ?_⟩
    cases tok with
    | num v => exact {}
    | malformed => exact { diag := ⟨[_], rfl, rfl⟩ }
  | write ha => exact ⟨_, .write ha, { out := ⟨[_], rfl, rfl⟩ }⟩
  | acc ha h => exact ⟨_, .acc ha (accResult_withRecords f o d cs r h), {}⟩
  | store ha => exact ⟨_, .store ha, {}⟩
  | jump hi => exact ⟨_, .jump hi, {}⟩
  | fallThrough hi => exact ⟨_, .fallThrough hi, {}⟩
  | halt hi => exact ⟨_, .halt hi, {}⟩

/-- Other pending acts of the host change nothing else in an instruction's next state. -/
theorem effect_withCommands (h : Effect N s i t) :
    Effect N { s with commands := cs } i { t with commands := cs } ∧ t.commands = s.commands := by
  obtain ⟨u, hu, hm⟩ := effect_withRecords s.fault s.out s.diag cs s.replies h
  obtain ⟨os, ht, ho⟩ := hm.out
  obtain ⟨ds, htd, hd⟩ := hm.diag
  have hf : u.fault = t.fault := hm.fault.elim id fun e => e.2.trans e.1.symm
  have e : u = { t with commands := cs } :=
    State.ext hm.mem hm.acc hm.pc hm.rs hf hm.inputs (ho.trans ht.symm) (hd.trans htd.symm) hm.commands.2
      (hm.replies.2.trans hm.replies.1.symm)
  exact ⟨e ▸ hu, hm.commands.1⟩

end StepEffect

/-! ## The hardware: NUM_Q -/

section Hardware

variable {s t : State} {w : Value} {c : HostCommand}

theorem stepEffect_of_step (h : step s = .next t) : StepEffect numQ s t :=
  stepEffect_of_stepWith (step_eq_with s ▸ h)

theorem exec_of_effect {i : Instr} (h : Effect numQ s i t) : exec i s = .next t :=
  (exec_eq_with i s).trans (execWith_of_effect h)

theorem step_of_hostEffect {rest : List HostCommand} (hr : s.rs ≠ .running) (hc : s.commands = c :: rest)
    (h : HostEffect numQ { s with commands := rest } c t) : step s = .next t := by
  rw [step, stepBy_of_not_running hr, hostTurn_of_cons hc, perform_of_hostEffect h]

/-! ### The invariant -/

/-- While no fault is recorded, the invariant speaks of memory and `pc` only. -/
theorem inv_of_no_fault (hw : s.mem.wf) (hc : 1 ≤ s.mem.capacity)
    (hp : s.rs = .running → s.pc ≤ max s.mem.capacity 99) (hf : s.fault = none) : s.Inv :=
  ⟨hw, hc, hp, fun h => absurd hf h, fun f h => by cases hf.symm.trans h⟩

/-- Fault entry establishes the clauses on the fault and ends the run (R89). -/
theorem inv_raise (k : FaultKind) (p : ℕ) (hw : s.mem.wf) (hc : 1 ≤ s.mem.capacity) :
    (raise k p s).Inv := by
  refine ⟨hw, hc, nofun, fun _ => rfl, fun f hf => ?_⟩
  obtain rfl : FaultRecord.mk k p = f := Option.some.inj hf
  exact List.getLast?_concat

theorem no_fault_of_running (h : s.Inv) (hr : s.rs = .running) : s.fault = none :=
  by_contra fun hf => by cases hr.symm.trans (h.faultEndsRun hf)

/-- An instruction fetched from memory leaves `pc` at most at the capacity, or at a two-digit target (R17). -/
theorem effect_pc_le (hf : fetch s = some w) (h : Effect numQ s (decode w) t) :
    t.pc ≤ max s.mem.capacity 99 := by
  obtain ⟨hpc, -⟩ := fetch_some.mp hf
  rcases effect_pc h with e | ⟨n, hi, e⟩ | ⟨o, -, -, rfl⟩
  · omega
  · have := decoded_branch_target_lt hi
    omega
  · omega

theorem inv_of_effect (hs : s.Inv) (hr : s.rs = .running) (hf : fetch s = some w)
    (h : Effect numQ s (decode w) t) : t.Inv := by
  have hn := no_fault_of_running hs hr
  obtain ⟨hw, hc⟩ := effect_mem_wf hs.memWf h
  have hcells : 1 ≤ t.mem.capacity := hc ▸ hs.hasCells
  have hpc : t.pc ≤ max t.mem.capacity 99 := hc ▸ effect_pc_le hf h
  rcases effect_runState h with ⟨-, e⟩ | ⟨k, rfl⟩ | ⟨-, e, -⟩
  · exact inv_of_no_fault hw hcells (fun _ => hpc) (e.trans hn)
  · exact inv_raise (s := s.advance) k s.pc hw hcells
  · exact inv_of_no_fault hw hcells (fun _ => hpc) (e.trans hn)

theorem inv_of_hostEffect (hs : s.Inv) (hr : s.rs ≠ .running) (h : HostEffect numQ s c t) : t.Inv := by
  obtain ⟨hw, hc⟩ := hostEffect_mem_wf hs.memWf h
  have hcells : 1 ≤ t.mem.capacity := hc ▸ hs.hasCells
  rcases hostEffect_runState h with ⟨ers, ef, ed⟩ | ⟨-, ers, ef⟩ | ⟨-, -, epc, ef⟩
  · refine ⟨hw, hcells, fun e => absurd (ers.symm.trans e) hr, fun e => ?_, fun f e => ?_⟩
    · exact ers.trans (hs.faultEndsRun (ef ▸ e))
    · exact ed ▸ hs.faultReported f (ef ▸ e)
  · exact inv_of_no_fault hw hcells (fun e => by cases ers.symm.trans e) ef
  · exact inv_of_no_fault hw hcells (fun _ => by omega) ef

/-- The invariant speaks neither of the host's pending acts nor of the tokens on offer. -/
theorem inv_withHostLists (hs : s.Inv) (cs : List HostCommand) (ts : List Token) :
    State.Inv { s with commands := cs, inputs := ts } :=
  ⟨hs.memWf, hs.hasCells, hs.pcRange, hs.faultEndsRun, hs.faultReported⟩

theorem inv_of_stepEffect (hs : s.Inv) (h : StepEffect numQ s t) : t.Inv := by
  cases h with
  | idle => exact hs
  | @host c rest _ hr _ h => exact inv_of_hostEffect (inv_withHostLists hs rest s.inputs) hr h
  | fetchFault => exact inv_raise .addressFault s.pc hs.memWf hs.hasCells
  | instr hr hf h => exact inv_of_effect hs hr hf h

end Hardware

end Sys2Proof.Machine

namespace Sys2Proof.Proofs

open Sys2Proof Sys2Proof.Machine

/-- Settles O49: each of the four things a step can do keeps the invariant. -/
theorem stepKeepsTheInvariant : Obligations.StepKeepsTheInvariant :=
  ⟨fun _ _ hs h => inv_of_stepEffect hs (stepEffect_of_step h),
    fun s tok hs => inv_withHostLists hs s.commands (s.inputs ++ [tok])⟩

/-- Settles O35: an instruction's three ways with the run state, the fetch's fault, and the host's two events. -/
theorem runStateTransitions : Obligations.RunStateTransitions := by
  refine ⟨fun s t hr hn h => ?_, fun s t hr h => ?_⟩
  · cases stepEffect_of_step h with
    | idle hn => exact absurd hr hn
    | host hn => exact absurd hr hn
    | fetchFault => exact .inr (.inl ⟨rfl, nofun⟩)
    | instr _ hf h =>
      rcases effect_runState h with ⟨e, ef⟩ | ⟨k, rfl⟩ | ⟨e, ef, hi⟩
      · exact .inl ⟨e.trans hr, ef.trans hn⟩
      · exact .inr (.inl ⟨rfl, nofun⟩)
      · exact .inr (.inr ⟨⟨e, ef.trans hn⟩, _, hf, hi⟩)
  · cases stepEffect_of_step h with
    | idle => exact .inl rfl
    | fetchFault hn => exact absurd hn hr
    | instr hn => exact absurd hn hr
    | host _ hc h =>
      rcases hostEffect_runState h with ⟨e, -⟩ | ⟨rfl, e, -⟩ | ⟨rfl, e, -⟩
      · exact .inl e
      · exact .inr (.inl ⟨e, by rw [hc]; rfl⟩)
      · exact .inr (.inr ⟨e, by rw [hc]; rfl⟩)

/-- Settles O36: a cell that reads otherwise is the one cell that STORE, READ or the host's write names, or `reset`
has filled the array. -/
theorem onlyReadStoreAndTheHostWriteMemory : Obligations.OnlyReadStoreAndTheHostWriteMemory := by
  refine ⟨fun _ => rfl, fun s t hw h => ⟨(stepEffect_mem_wf hw (stepEffect_of_step h)).2, fun b hb => ?_⟩⟩
  cases stepEffect_of_step h with
  | idle => exact absurd rfl hb
  | fetchFault => exact absurd rfl hb
  | instr hr hf h =>
    rcases effect_mem h with e | ⟨a, v, ha, e, hi⟩ <;> rw [e] at hb ⊢
    · exact absurd rfl hb
    · obtain rfl := eq_of_get_set_ne hw hb
      rw [Memory.get, get_set_self hw]
      refine .inl ⟨hr, ha, _, hf, hi.imp id ?_⟩
      rintro ⟨hi', tok, rest, hin, rfl⟩
      exact ⟨hi', tok, rest, hin, by cases tok <;> rfl⟩
  | host hr hc h =>
    refine .inr ⟨hr, ?_⟩
    rcases hostEffect_mem h with e | ⟨rfl, e⟩ | ⟨a, v, ha, rfl, e⟩ <;> rw [e] at hb ⊢
    · exact absurd rfl hb
    · exact .inr ⟨by rw [hc]; rfl, rfl⟩
    · obtain rfl := eq_of_get_set_ne hw hb
      rw [Memory.get, get_set_self hw, hc]
      exact .inl ⟨ha, rfl⟩

/-- Settles O37: the accumulator's writers among the instructions and among the host's acts. -/
theorem onlyLoadAndArithmeticWriteAcc : Obligations.OnlyLoadAndArithmeticWriteAcc := by
  intro s t h hne
  cases stepEffect_of_step h with
  | idle => exact absurd rfl hne
  | fetchFault => exact absurd rfl hne
  | instr hr hf h =>
    obtain ⟨a, ha, hi⟩ := (effect_acc h).resolve_left hne
    exact .inl ⟨hr, _, a, hf, ha, accResult_instr hi⟩
  | host hr hc h =>
    rw [hc]
    rcases (hostEffect_acc h).resolve_left hne with rfl | ⟨rfl, e⟩
    · exact .inr ⟨hr, .inl rfl⟩
    · exact .inr ⟨hr, .inr ⟨rfl, e⟩⟩

/-- Settles O38: `pc` after each effect of an instruction. -/
theorem pcIsIncrementedUnlessABranchIsTaken : Obligations.PcIsIncrementedUnlessABranchIsTaken :=
  fun _ _ _ h => effect_pc (effect_of_exec h)

/-- Settles O40: the effect is the same under any fault status, records and host's side. -/
theorem instructionsReadOnlyTheArchitecturalInputs :
    Obligations.InstructionsReadOnlyTheArchitecturalInputs := by
  intro i s t f o d c r h
  obtain ⟨u, hu, hm⟩ := effect_withRecords f o d c r (effect_of_exec h)
  exact ⟨u, exec_of_effect hu, hm.mem, hm.acc, hm.pc, hm.rs, hm.inputs, hm.fault, hm.out, hm.diag⟩

/-- Settles O47: fetch and instruction do not see the pending acts, and a stopped machine without any is idle. -/
theorem hostAndEngineTakeTurns : Obligations.HostAndEngineTakeTurns := by
  refine ⟨fun s t c hr h => ?_, fun s hr hc => ?_⟩
  · cases stepEffect_of_step h with
    | idle hn => exact absurd hr hn
    | host hn => exact absurd hr hn
    | fetchFault _ hf => exact ⟨stepBy_of_fetch_none (s := { s with commands := c }) hr hf, rfl⟩
    | instr _ hf h =>
      obtain ⟨he, hc⟩ := effect_withCommands c h
      exact ⟨(step_of_fetch (s := { s with commands := c }) hr hf).trans (exec_of_effect he), hc⟩
  · rw [step, stepBy_of_not_running hr, hostTurn_of_nil hc]

/-- Settles O58: each of the four things a step can do keeps memory canonical. -/
theorem stepKeepsMemoryCanonicalOverAnyNumerics : Obligations.StepKeepsMemoryCanonicalOverAnyNumerics :=
  fun _ _ _ _ _ hw h => stepEffect_mem_wf hw (stepEffect_of_stepWith h)

/-- Settles O44: a cell of the zero-filled array reads as zero; the rest by definition. -/
theorem resetLeavesTheStatedValues : Obligations.ResetLeavesTheStatedValues :=
  ⟨rfl, fun _ ha => memRead_some.mpr ⟨ha, get_zeroFilled 100 _⟩, rfl, rfl, rfl, rfl, rfl, rfl⟩

/-- Settles O46: the effect of each access, with the cell named or refused. -/
theorem hostAccessOperations : Obligations.HostAccessOperations := by
  intro s rest hr hw
  refine ⟨fun a v hc ha => ⟨s.mem.set a v, step_of_hostEffect hr hc (.write ha), rfl, get_set_self hw a v,
      fun b hb => get_set_of_ne hw hb v⟩,
    fun a v hc ha => step_of_hostEffect hr hc (.answer (.writeRefused ha)),
    fun a hc ha => step_of_hostEffect hr hc (.answer (.read ha)),
    fun a hc ha => step_of_hostEffect hr hc (.answer (.readRefused ha)),
    fun hc => step_of_hostEffect hr hc (.answer .getAcc),
    fun v hc => step_of_hostEffect hr hc .setAcc,
    fun hc => step_of_hostEffect hr hc (.answer .getPc),
    fun n hc => step_of_hostEffect hr hc .setPc⟩

/-- Settles O48: no cell is listed, there are a hundred, and no fault is recorded. -/
theorem resetMeetsTheInvariant : Obligations.ResetMeetsTheInvariant :=
  inv_of_no_fault (zeroFilled_wf _) (by decide) nofun rfl

end Sys2Proof.Proofs

/-! ## Memory (spec/20_memory.md): the primitives, the canonical form, and who reaches the ports -/

namespace Sys2Proof.Machine

section Memory

variable {V : Type} {N : Numerics V} {z : V}

/-! ### The canonical form as data -/

theorem mem_of_lookupCell_ne {l : List (ℕ × V)} {a : ℕ} (h : lookupCell z l a ≠ z) :
    (a, lookupCell z l a) ∈ l := by
  induction l with
  | nil => exact absurd rfl h
  | cons c l ih =>
    obtain ⟨b, u⟩ := c
    simp only [lookupCell] at h ⊢
    split at h
    · next e => simp [e]
    · next e => simp [e, ih h]

theorem lookupCell_of_mem {l : List (ℕ × V)} (hl : l.Pairwise fun c d => c.1 < d.1) {c : ℕ × V}
    (hc : c ∈ l) : lookupCell z l c.1 = c.2 := by
  induction l with
  | nil => cases hc
  | cons d l ih =>
    obtain ⟨hd, hl⟩ := List.pairwise_cons.mp hl
    rcases List.mem_cons.mp hc with rfl | hc
    · simp [lookupCell]
    · simp [lookupCell, (hd c hc).ne', ih hl hc]

/-- A canonical memory lists exactly the cells that read otherwise than an unlisted one. -/
theorem mem_cells_iff {m : Memory V} (h : m.wfWith N) {c : ℕ × V} :
    c ∈ m.cells ↔ m.getWith N c.1 = c.2 ∧ c.2 ≠ Memory.unlisted N := by
  refine ⟨fun hc => ⟨lookupCell_of_mem h.1 hc, (h.2 c hc).2⟩, fun ⟨e, hne⟩ => ?_⟩
  have hmem := mem_of_lookupCell_ne (e.trans_ne hne)
  rwa [← Memory.getWith, e] at hmem

/-- The canonical form of what an array reads as is unique: a listing sorted by address is known by its members. -/
theorem eq_of_get_eq {m m' : Memory V} (h : m.wfWith N) (h' : m'.wfWith N) (hc : m.capacity = m'.capacity)
    (hget : ∀ a, m.getWith N a = m'.getWith N a) : m = m' := by
  have hcells : m.cells = m'.cells :=
    List.Pairwise.eq_of_mem_iff (r := InvImage (· < ·) Prod.fst) h.1 h'.1 fun c => by
      rw [mem_cells_iff h, mem_cells_iff h', hget]
  cases m
  cases m'
  congr

/-! ### The two primitives (R35) -/

theorem memRead_of_lt {m : Memory V} {a : ℕ} (ha : a < m.capacity) :
    memReadWith N m a = some (m.getWith N a) := memRead_some.mpr ⟨ha, rfl⟩

variable [DecidableEq V]

theorem memWrite_of_lt {m : Memory V} {a : ℕ} (ha : a < m.capacity) (v : V) :
    memWriteWith N m a v = some (m.setWith N a v) := memWrite_some.mpr ⟨ha, rfl⟩

theorem memRead_set_self {m : Memory V} (h : m.wfWith N) {a : ℕ} (ha : a < m.capacity) (v : V) :
    memReadWith N (m.setWith N a v) a = some v := memRead_some.mpr ⟨ha, get_set_self h a v⟩

theorem memRead_set_of_ne {m : Memory V} (h : m.wfWith N) {a b : ℕ} (hb : b ≠ a) (v : V) :
    memReadWith N (m.setWith N a v) b = memReadWith N m b := by
  rw [memReadWith, memReadWith, set_capacity, get_set_of_ne h hb]

/-! ### The ports and the host's lists -/

variable {s t : State V} {i : Instr V}

/-- Only READ takes a token, the oldest (R28, R66). -/
theorem effect_inputs (h : Effect N s i t) :
    t.inputs = s.inputs ∨ ∃ a tok, i = .read (.address a) ∧ s.inputs = tok :: t.inputs := by
  cases h
  case read a tok rest _ hi => exact .inr ⟨a, tok, rfl, by rw [hi, receive_inputs, setInputs_inputs]⟩
  all_goals exact .inl rfl

/-- Only WRITE emits, the value of its cell (R29, R68). -/
theorem effect_out (h : Effect N s i t) :
    t.out = s.out ∨ ∃ a, i = .write (.address a) ∧ a < s.mem.capacity ∧
      t.out = s.out ++ [s.mem.getWith N a] := by
  cases h
  case write a ha => exact .inr ⟨a, rfl, ha, rfl⟩
  case read => exact .inl (receive_out ..)
  all_goals exact .inl rfl

/-- No instruction touches the host's pending acts or the replies to it (entries 1 and 5). -/
theorem effect_hostLists (h : Effect N s i t) : t.commands = s.commands ∧ t.replies = s.replies := by
  cases h
  case read => exact ⟨receive_commands .., receive_replies ..⟩
  all_goals exact ⟨rfl, rfl⟩

end Memory

end Sys2Proof.Machine

namespace Sys2Proof.Proofs

open Sys2Proof Sys2Proof.Machine

/-- Settles O10: read after write at the cell and elsewhere, and a write keeps the canonical form. -/
theorem memoryReadsTheLastWrite : Obligations.MemoryReadsTheLastWrite := by
  intro m m' a v hw h
  obtain ⟨ha, rfl⟩ := memWrite_some.mp h
  exact ⟨memRead_set_self hw ha v, fun b hb => memRead_set_of_ne hw hb v, rfl, set_wf hw ha v⟩

/-- Settles O11: what a canonical memory lists is what it reads as. -/
theorem canonicalMemoriesReadingAlikeAreEqual : Obligations.CanonicalMemoriesReadingAlikeAreEqual :=
  fun _ _ => eq_of_get_eq

/-- Settles O12: the bounds check of each primitive, and the fault of each instruction on a cell. -/
theorem accessOutsideMemoryFaults : Obligations.AccessOutsideMemoryFaults := by
  refine ⟨fun m a v => ⟨fun ha => ⟨memRead_of_lt ha, memWrite_of_lt ha v⟩,
    fun ha => ⟨memRead_none.mpr ha, memWrite_none.mpr ha⟩⟩, fun o s ho => ?_⟩
  have faults (i : Instr) (hi : usesCell o i) : exec i s = .next (s.afterFault .addressFault) :=
    (exec_eq_with i s).trans (execWith_of_noCell ho hi)
  refine ⟨faults _ ?_, faults _ ?_, faults _ ?_, faults _ ?_, faults _ ?_, faults _ ?_, faults _ ?_,
    faults _ ?_⟩ <;> simp [usesCell]

/-- Settles O20: after the STORE the cell at `pc` reads as the accumulator, so the fetch answers that word. -/
theorem storedWordIsFetchedNext : Obligations.StoredWordIsFetchedNext := by
  intro s w hw hr hf hd hc
  have hstep : step s = .next (s.advance.setMem (s.mem.set (s.pc + 1) s.acc)) := by
    rw [step_of_fetch hr hf, hd]
    exact exec_of_effect (.store hc)
  exact ⟨_, hstep, hr, rfl, step_of_fetch hr (memRead_set_self hw hc s.acc)⟩

/-- Settles O39: each instruction's effect on the two ports and on the host's lists. -/
theorem onlyReadTakesInputAndOnlyWriteEmits : Obligations.OnlyReadTakesInputAndOnlyWriteEmits := by
  intro i s t h
  have he := effect_of_exec h
  exact ⟨effect_inputs he, effect_out he, effect_hostLists he⟩

end Sys2Proof.Proofs

/-! ## The encoding (spec/30_encoding.md): the opcode selects the row, and the words outside the table -/

namespace Sys2Proof

/-! ### The opcode set and the opcode map -/

theorem recognised_le {c : ℕ} (h : c ∈ recognisedOpcodes) : c ≤ 43 := by
  rcases recognised_cases h with h | h | h | h | h | h | h | h | h | h | h | h <;> omega

/-- The opcode map reads each opcode of the set back from its row (R52). -/
theorem opcode_instrOf {V : Type} {c : ℕ} (hc : c ∈ recognisedOpcodes) (o : Operand V) (w : V) :
    (instrOf (c : ℤ) o w).opcode = some c := by
  rcases recognised_cases hc with rfl | rfl | rfl | rfl | rfl | rfl | rfl | rfl | rfl | rfl | rfl | rfl <;> rfl

/-- Every row but HALT's uses its operand, as a cell address or as a branch target (R54). -/
theorem instrOf_usesCell_or_branch {V : Type} {c : ℕ} (hc : c ∈ recognisedOpcodes) (h43 : c ≠ 43)
    (o : Operand V) (w : V) :
    Machine.usesCell o (instrOf (c : ℤ) o w) ∨
      instrOf (c : ℤ) o w ∈ [Instr.branch o, .branchNeg o, .branchZero o] := by
  rcases recognised_cases hc with rfl | rfl | rfl | rfl | rfl | rfl | rfl | rfl | rfl | rfl | rfl | rfl
  case inr.inr.inr.inr.inr.inr.inr.inr.inr.inr.inr => exact absurd rfl h43
  all_goals simp [Machine.usesCell, instrOf]

section AnyNumerics

variable {V : Type} {N : Numerics V} {w : V}

theorem decodeWith_eq {c : ℤ} (h : N.opc w = some c) :
    decodeWith N w = instrOf c (operandOfWith N c w) w := by
  simp only [decodeWith, h]

/-- A word selects the row of an opcode of the set exactly when that is its opcode (R52). -/
theorem decodeWith_opcode_iff {c : ℕ} :
    (decodeWith N w).opcode = some c ↔ c ∈ recognisedOpcodes ∧ N.opc w = some (c : ℤ) := by
  have row {d : ℕ} (hd : d ∈ recognisedOpcodes) (ho : N.opc w = some (d : ℤ)) :
      (decodeWith N w).opcode = some d := by
    rw [decodeWith_eq ho, opcode_instrOf hd]
  refine ⟨fun h => ?_, fun ⟨hc, ho⟩ => row hc ho⟩
  by_cases hr : ∃ d ∈ recognisedOpcodes, N.opc w = some (d : ℤ)
  · obtain ⟨d, hd, ho⟩ := hr
    obtain rfl : d = c := Option.some.inj ((row hd ho).symm.trans h)
    exact ⟨hd, ho⟩
  · rw [decodeWith_of_not_recognised fun d hd ho => hr ⟨d, hd, ho⟩] at h
    cases h

/-- Without an integer operand the decoder makes one that is no address (R50). -/
theorem operandOfWith_of_opd_none (c : ℤ) (h : N.opd w = none) :
    operandOfWith N c w = .fraction (N.sub w (N.ofInt (100 * c))) := by
  simp only [operandOfWith, h]

end AnyNumerics

/-! ### The integer words of NUM_Q -/

/-- The opcode of a non-negative integer word (R48). -/
theorem opc_of_nat (n : ℕ) : opc (n : Value) = some ((n / 100 : ℕ) : ℤ) := by
  rw [← Int.cast_natCast, opc_of_int, Int.ofNat_tdiv, Nat.cast_ofNat]

/-- The operand of a non-negative integer word (R48). -/
theorem opd_of_nat (n : ℕ) : opd (n : Value) = some ((n % 100 : ℕ) : ℤ) := by
  rw [← Int.cast_natCast, opd_of_int, Int.ofNat_tmod, Nat.cast_ofNat]

/-- The opcode of a negative integer word truncates toward zero (R49). -/
theorem opc_of_neg_nat (n : ℕ) : opc (-(n : Value)) = some (-((n / 100 : ℕ) : ℤ)) := by
  rw [← Int.cast_natCast, ← Int.cast_neg, opc_of_int, Int.neg_tdiv, Int.ofNat_tdiv, Nat.cast_ofNat]

/-- The operand of a negative integer word takes the sign of the word (R49). -/
theorem opd_of_neg_nat (n : ℕ) : opd (-(n : Value)) = some (-((n % 100 : ℕ) : ℤ)) := by
  rw [← Int.cast_natCast, ← Int.cast_neg, opd_of_int, Int.neg_tmod, Int.ofNat_tmod, Nat.cast_ofNat]

theorem opd_of_not_int {w : Value} (h : w.den ≠ 1) : opd w = none := if_neg h

/-- A word whose opcode is negative, zero or above the table's last is unrecognised (R53). -/
theorem decode_of_opc_outside {w : Value} {c : ℤ} (h : opc w = some c) (hc : c ≤ 0 ∨ 43 < c) :
    decode w = .unrecognised w := by
  refine decode_of_not_recognised fun d hd e => ?_
  have hcd : c = (d : ℤ) := Option.some.inj (h.symm.trans e)
  have hpos := recognised_pos hd
  have hle := recognised_le hd
  omega

/-- The word of an opcode and a two-digit operand selects that opcode's row (R47, R52). -/
theorem decode_of_digits {c a : ℕ} (hc : c < 100) (ha : a ≤ 99) :
    decode ((100 * c + a : ℕ) : Value) = instrOf (c : ℤ) (.address a) ((100 * c + a : ℕ) : Value) := by
  have h := decodeWith_wordOf Machine.numQ_lawful.decodes (a := a) (by omega) (c := c) (by omega) (by omega)
  have hw : wordOf Machine.numQ (c : ℤ) (.address a) = ((100 * c + a : ℕ) : Value) := by
    simp [wordOf_numQ, Operand.value]
  rwa [hw] at h

end Sys2Proof

namespace Sys2Proof.Machine

section Decoded

variable {V : Type} [DecidableEq V] {N : Numerics V} {w : V}

/-- A word without an opcode of the set halts as HALT does (R53). -/
theorem execWith_decodeWith_of_not_recognised (h : ∀ c ∈ recognisedOpcodes, N.opc w ≠ some (c : ℤ))
    (s : State V) :
    execWith N (decodeWith N w) s = .next { s with rs := .halted, pc := s.pc + 1 } := by
  rw [decodeWith_of_not_recognised h]
  rfl

/-- HALT looks at no operand, so its opcode alone decides (R50, R79). -/
theorem execWith_decodeWith_of_halt (h : N.opc w = some 43) (s : State V) :
    execWith N (decodeWith N w) s = .next { s with rs := .halted, pc := s.pc + 1 } := by
  rw [decodeWith_eq h]
  rfl

/-- Every other row faults on a word with no integer operand, a branch that would not be taken included (R50). -/
theorem execWith_decodeWith_of_opd_none {c : ℕ} (hc : c ∈ recognisedOpcodes) (h43 : c ≠ 43)
    (ho : N.opc w = some (c : ℤ)) (hd : N.opd w = none) (s : State V) :
    execWith N (decodeWith N w) s = .next (s.afterFault .addressFault) := by
  rw [decodeWith_eq ho, operandOfWith_of_opd_none c hd]
  rcases instrOf_usesCell_or_branch hc h43 (.fraction (N.sub w (N.ofInt (100 * c)))) w with hi | hi
  · exact execWith_of_noCell (fun a h => by cases h) hi
  · exact execWith_branch_fraction hi

end Decoded

end Sys2Proof.Machine

namespace Sys2Proof.Proofs

open Sys2Proof Sys2Proof.Machine

/-- Settles O2: truncating division and remainder of a non-negative integer are the natural ones. -/
theorem integerWordsSplitIntoOpcodeAndOperand : Obligations.IntegerWordsSplitIntoOpcodeAndOperand :=
  fun n => ⟨opc_of_nat n, opd_of_nat n, by omega, Nat.div_add_mod' n 100⟩

/-- Settles O3: the decoder's opcode is that of its row; for integer words that is the range of `word div 100`. -/
theorem opcodeMapSelectsRowsByOpcode : Obligations.OpcodeMapSelectsRowsByOpcode := by
  refine ⟨fun w c => decodeWith_opcode_iff, fun n c hc => ?_, fun a ha => ?_⟩
  · have hrow : (decode (n : Value)).opcode = some c ↔ n / 100 = c := by
      rw [decode, decodeWith_opcode_iff, and_iff_right hc, numQ_opc, opc_of_nat, Option.some.injEq, Nat.cast_inj]
    rw [hrow]
    omega
  · have row (c : ℕ) (hc : c < 100) := decode_of_digits hc ha
    exact ⟨row 10 (by decide), row 11 (by decide), row 20 (by decide), row 21 (by decide), row 30 (by decide),
      row 31 (by decide), row 32 (by decide), row 33 (by decide), row 40 (by decide), row 41 (by decide),
      row 42 (by decide), row 43 (by decide)⟩

/-- Settles O4: such a word decodes to the unrecognised case, whose meaning is HALT's; the zero word's opcode is 0. -/
theorem opcodesOutsideTheSetHalt : Obligations.OpcodesOutsideTheSetHalt := by
  refine ⟨fun w s h => ?_, fun c hc h => ?_⟩
  · rw [decode_of_not_recognised h]
    exact ⟨rfl, rfl, fun o => rfl⟩
  · have h0 : (0 : ℤ) = c := Option.some.inj ((opc_of_nat 0).symm.trans h)
    have hpos := recognised_pos hc
    omega

/-- Settles O5: the opcode is not positive for a negative word, and at least 100 from 10000 on. -/
theorem negativeAndLargeWordsAreUnrecognised : Obligations.NegativeAndLargeWordsAreUnrecognised :=
  ⟨fun n _ => ⟨opc_of_neg_nat n, opd_of_neg_nat n, decode_of_opc_outside (opc_of_neg_nat n) (by omega)⟩,
    fun n hn => ⟨opc_of_nat n, decode_of_opc_outside (opc_of_nat n) (by omega)⟩⟩

/-- Settles O52: the three ways a word without an opcode of the set or without an operand can go. -/
theorem wordsWithoutOpcodeOrOperandOverAnyNumerics : Obligations.WordsWithoutOpcodeOrOperandOverAnyNumerics :=
  fun _ _ _ _ s => ⟨fun h => execWith_decodeWith_of_not_recognised h s,
    fun h => execWith_decodeWith_of_halt h s,
    fun _ hc h43 ho hd => execWith_decodeWith_of_opd_none hc h43 ho hd s⟩

/-- Settles O6: what O52 says over any numerics, at NUM_Q, where a word that is no integer has an opcode and no
operand. -/
theorem nonIntegerWordsFaultOrHalt : Obligations.NonIntegerWordsFaultOrHalt := by
  intro w s hd
  have hopc := opc_eq_trunc w
  have hopd := opd_of_not_int hd
  rw [exec_eq_with, decode]
  refine ⟨hopc, hopd, fun h => execWith_decodeWith_of_halt (hopc.trans (congrArg some h)) s,
    fun h => execWith_decodeWith_of_not_recognised (fun c hc e => ?_) s,
    fun c hc h43 h => execWith_decodeWith_of_opd_none hc h43 (hopc.trans (congrArg some h)) hopd s⟩
  exact h c hc (Option.some.inj (hopc.symm.trans e))

/-- Settles O34: what O55 says over any numerics, at NUM_Q. -/
theorem everyStepHasANextState : Obligations.EveryStepHasANextState := by
  obtain ⟨hexec, hstep⟩ := everyStepHasANextStateOverAnyNumerics Value numQ
  refine ⟨fun i s => ?_, fun s => ?_⟩
  · rw [exec_eq_with]
    exact hexec i s
  · rw [step_eq_with]
    exact hstep s

end Sys2Proof.Proofs

/-! ## The run loop (spec/40_run_loop.md): the step and the precise fault -/

namespace Sys2Proof.Machine

section RunLoop

variable {V : Type} [DecidableEq V] {N : Numerics V} {s t : State V} {i : Instr V} {f : FaultRecord}

/-- An instruction that records a fault leaves the fault entry alone (R63, R89, R90). -/
theorem eq_afterFault_of_effect (hn : s.fault = none) (h : Effect N s i t) (hf : t.fault = some f) :
    t = s.afterFault f.kind := by
  have hne : t.fault ≠ s.fault := by simp [hf, hn]
  rcases effect_runState h with ⟨-, e⟩ | ⟨k, rfl⟩ | ⟨-, e, -⟩
  · exact absurd e hne
  · cases hf
    rfl
  · exact absurd e hne

end RunLoop

end Sys2Proof.Machine

namespace Sys2Proof.Proofs

open Sys2Proof Sys2Proof.Machine

/-- Settles O32: inside memory the fetch answers the cell at `pc`. -/
theorem stepRunsTheDecodedInstruction : Obligations.StepRunsTheDecodedInstruction :=
  fun _ hr hpc => step_of_fetch hr (fetch_some.mpr ⟨hpc, rfl⟩)

/-- Settles O33: outside memory the fetch has no answer, and the step is the fault entry alone. -/
theorem fetchOutsideMemoryFaults : Obligations.FetchOutsideMemoryFaults :=
  fun _ hr hpc => stepBy_of_fetch_none hr (fetch_none.mpr hpc)

/-- Settles O41: an instruction's only effect that records a new fault is the fault entry. -/
theorem faultsArePrecise : Obligations.FaultsArePrecise :=
  fun _ _ _ _ hn h => eq_afterFault_of_effect hn (effect_of_exec h)

end Sys2Proof.Proofs

/-! ## Input and output (spec/41_io.md): READ, its wait for a token, and WRITE -/

namespace Sys2Proof.Proofs

open Sys2Proof Sys2Proof.Machine

/-- Settles O15: a waiting READ leaves the state alone, so every further step is that one again; the token offered is
then the only one, and READ takes it. -/
theorem readWaitsForAToken : Obligations.ReadWaitsForAToken := by
  intro s ⟨hr, hi, w, o, a, hw, hd, hc⟩
  obtain ⟨rfl, ha⟩ := operandCell_some.mp hc
  have hwait : step s = .next s := by
    rw [step_of_fetch hr hw, hd]
    exact exec_of_effect (.wait ha hi)
  refine ⟨run_of_step_self hwait, fun t => ?_⟩
  have hoffer : (s.offer t).inputs = [t] := by rw [offer_inputs, hi, List.nil_append]
  have hread : step (s.offer t) = .next (receive numQ s.pc a t ((s.offer t).advance.setInputs [])) := by
    rw [step_of_fetch (s := s.offer t) hr hw, hd]
    exact exec_of_effect (.read ha hoffer)
  exact ⟨_, hread, receive_inputs .., receive_pc .., (receive_rs ..).trans hr⟩

/-- Settles O13: READ writes the number into its cell, and a written cell reads back. -/
theorem readStoresTheNumberOffered : Obligations.ReadStoresTheNumberOffered :=
  fun s a v _ hw ha hi => ⟨s.mem.set a v, exec_of_effect (.read ha hi), rfl, get_set_self hw a v,
    fun _ hb => get_set_of_ne hw hb v⟩

/-- Settles O16: WRITE's one effect on a cell, and the fault of an operand that names none. -/
theorem writeEmitsTheCell : Obligations.WriteEmitsTheCell :=
  fun _ => ⟨fun _ ha => exec_of_effect (.write ha),
    fun _ ho => ⟨exec_of_effect (.noCell (namesNoCell_iff.mp ho) (.inr (.inl rfl))), afterFault_out ..⟩⟩

end Sys2Proof.Proofs

/-! ## Load and store (spec/42_load_store.md): what LOAD and STORE leave, and their corner cases -/

namespace Sys2Proof.Proofs

open Sys2Proof Sys2Proof.Machine

/-- Settles O18: STORE writes the accumulator into its cell, and a written cell reads back; an operand that names no
cell is the fault entry, which leaves memory alone. -/
theorem storeCopiesAccIntoTheCell : Obligations.StoreCopiesAccIntoTheCell :=
  fun s hw => ⟨fun a ha => ⟨s.mem.set a s.acc, exec_of_effect (.store ha), rfl, get_set_self hw a s.acc,
      fun _ hb => get_set_of_ne hw hb s.acc⟩,
    fun _ ho => ⟨exec_of_effect (.noCell (namesNoCell_iff.mp ho) (.inr (.inr (.inr (.inl rfl))))),
      afterFault_mem ..⟩⟩

/-- Settles O19: law L4 over any numerics, at those of the hardware. -/
theorem loadThenStoreIsANoOp : Obligations.LoadThenStoreIsANoOp := by
  intro s a
  simp only [exec_eq_with]
  exact loadThenStoreIsANoOpOverAnyNumerics Value numQ s a

/-- Settles O17: LOAD's one effect on a cell, and the fault of an operand that names none. -/
theorem loadCopiesTheCellIntoAcc : Obligations.LoadCopiesTheCellIntoAcc :=
  fun _ => ⟨fun _ ha => exec_of_effect (.acc ha .load),
    fun _ ho => ⟨exec_of_effect (.noCell (namesNoCell_iff.mp ho) (.inr (.inr (.inl rfl)))), afterFault_acc ..⟩⟩

end Sys2Proof.Proofs

/-! ## Arithmetic (spec/43_arithmetic.md): ADD, SUB, MUL, DIV and their sequences -/

namespace Sys2Proof.Machine

section Arithmetic

variable {s : State} {i : Instr}

/-- LOAD, ADD, SUB, MUL and DIV by a divisor that is not zero, of the hardware (R69, R72 to R75). -/
theorem exec_of_accResult {a : ℕ} {v : Value} (ha : a < s.mem.capacity) (h : AccResult numQ s a i v) :
    exec i s = .next { s with acc := v, pc := s.pc + 1 } :=
  exec_of_effect (.acc ha h)

/-- The bounds check of the hardware's instructions on a cell (R35, R63). -/
theorem exec_of_noCell {o : Operand} (h : namesNoCell o s.mem) (hi : usesCell o i) :
    exec i s = .next (s.afterFault .addressFault) :=
  exec_of_effect (.noCell (namesNoCell_iff.mp h) hi)

theorem FoldOp.apply_eq_with (f : FoldOp) (x v : Value) : f.apply x v = f.applyWith numQ x v := by
  cases f <;> rfl

/-- The hardware's sequences are the machine's at NUM_Q. -/
theorem execSeq_eq_with : execSeq = runInstrs (execWith numQ) :=
  congrArg runInstrs (funext₂ exec_eq_with)

end Arithmetic

end Sys2Proof.Machine

namespace Sys2Proof.Proofs

open Sys2Proof Sys2Proof.Machine

/-- Settles O24: the quotient of NUM_Q times a divisor that is not zero is the dividend; the zero divisor and the
operand that names no cell are each the fault entry. -/
theorem divDividesByTheCell : Obligations.DivDividesByTheCell :=
  fun s => ⟨fun a ha hz => ⟨s.acc / s.mem.get a, exec_of_accResult ha (.div (numQ_isZero_false.mpr hz)),
      div_mul_cancel₀ s.acc hz⟩,
    fun _ ha hz => exec_of_effect (.zeroDivisor ha ((numQ_isZero _).mpr hz)),
    fun _ ho => exec_of_noCell ho (by simp [usesCell]),
    fun k => ⟨afterFault_mem k s, afterFault_acc k s⟩⟩

/-- Settles O25: law L5 over any numerics, at those of the hardware. -/
theorem arithmeticSequencesFoldLeftToRight : Obligations.ArithmeticSequencesFoldLeftToRight := by
  intro ops s
  simp only [execSeq_eq_with, FoldOp.apply_eq_with]
  exact runInstrs_foldOps ops

/-- Settles O21: ADD's effect on a cell, and the fault of an operand that names none. -/
theorem addAddsTheCell : Obligations.AddAddsTheCell :=
  fun s => ⟨fun _ ha => exec_of_accResult ha .add,
    fun _ ho => ⟨exec_of_noCell ho (by simp [usesCell]), afterFault_acc _ s⟩⟩

/-- Settles O22: SUB's effect on a cell, and the fault of an operand that names none. -/
theorem subSubtractsTheCell : Obligations.SubSubtractsTheCell :=
  fun s => ⟨fun _ ha => exec_of_accResult ha .sub,
    fun _ ho => ⟨exec_of_noCell ho (by simp [usesCell]), afterFault_acc _ s⟩⟩

/-- Settles O23: MUL's effect on a cell, and the fault of an operand that names none. -/
theorem mulMultipliesByTheCell : Obligations.MulMultipliesByTheCell :=
  fun s => ⟨fun _ ha => exec_of_accResult ha .mul,
    fun _ ho => ⟨exec_of_noCell ho (by simp [usesCell]), afterFault_acc _ s⟩⟩

end Sys2Proof.Proofs

/-! ## Control (spec/44_control.md): the branches, HALT and the unrecognised opcode -/

namespace Sys2Proof.Proofs

open Sys2Proof Sys2Proof.Machine

/-- Settles O31: the jump back to the instruction's own address leaves the state alone, so every further step is that
one again. -/
theorem branchToItselfNeverEnds : Obligations.BranchToItselfNeverEnds := by
  intro s w hr hw hd
  have hself : step s = .next s := by
    rw [step_of_fetch hr hw, hd]
    exact exec_of_effect (.jump (.inl rfl))
  exact run_of_step_self hself

/-- Settles O26: BRANCH jumps to any integer target, the fetch there checks it, and a target that is no integer is the
fault entry. -/
theorem branchAlwaysJumps : Obligations.BranchAlwaysJumps :=
  fun s => ⟨fun _ => exec_of_effect (.jump (.inl rfl)),
    fun t hr ht => fetchOutsideMemoryFaults { s with pc := t } hr ht,
    fun _ => exec_of_effect (.noTarget (.inl rfl))⟩

/-- Settles O27: the test of BRANCHNEG at NUM_Q is the sign of the accumulator; it chooses the jump or the
fallthrough. -/
theorem branchNegJumpsIffAccNegative : Obligations.BranchNegJumpsIffAccNegative :=
  fun _ => ⟨fun _ hneg => exec_of_effect (.jump (.inr (.inl ⟨rfl, (numQ_isNeg _).mpr hneg⟩))),
    fun _ hneg => exec_of_effect (.fallThrough (.inl ⟨rfl, numQ_isNeg_false.mpr hneg⟩)),
    fun _ => exec_of_effect (.noTarget (.inr (.inl rfl)))⟩

/-- Settles O28: the test of BRANCHZERO at NUM_Q is equality with zero; it chooses the jump or the fallthrough. -/
theorem branchZeroJumpsIffAccZero : Obligations.BranchZeroJumpsIffAccZero :=
  fun _ => ⟨fun _ hz => exec_of_effect (.jump (.inr (.inr ⟨rfl, (numQ_isZero _).mpr hz⟩))),
    fun _ hz => exec_of_effect (.fallThrough (.inr ⟨rfl, numQ_isZero_false.mpr hz⟩)),
    fun _ => exec_of_effect (.noTarget (.inr (.inr rfl)))⟩

/-- Settles O29: HALT's one effect, which looks at no operand. -/
theorem haltEndsTheRun : Obligations.HaltEndsTheRun :=
  fun _ o => exec_of_effect (.halt (.inl ⟨o, rfl⟩))

/-- Settles O30: an unrecognised word's one effect is HALT's. -/
theorem unrecognisedActsAsHalt : Obligations.UnrecognisedActsAsHalt := by
  intro s w o
  have hunrec : exec (.unrecognised w) s = .next { s with rs := .halted, pc := s.pc + 1 } :=
    exec_of_effect (.halt (.inr ⟨w, rfl⟩))
  exact ⟨hunrec, hunrec.trans (haltEndsTheRun s o).symm⟩

end Sys2Proof.Proofs

/-! ## Exceptions (spec/60_exceptions.md): the causes of the two faults, and the malformed token -/

namespace Sys2Proof.Machine

section Exceptions

/-- The causes of the faults an instruction can raise, by kind (R83, R84, and R50 for the branches). -/
inductive FaultCause {V : Type} (N : Numerics V) (s : State V) : FaultKind → Instr V → Prop
  | noCell {o i} (ho : namesNoCell o s.mem) (hi : usesCell o i) : FaultCause N s .addressFault i
  | noTarget {q i} (hi : i = .branch (.fraction q) ∨ i = .branchNeg (.fraction q) ∨
      i = .branchZero (.fraction q)) : FaultCause N s .addressFault i
  | zeroDivisor {a} (ha : a < s.mem.capacity) (hz : N.isZero (s.mem.getWith N a) = true) :
      FaultCause N s .arithmeticFault (.div (.address a))

variable {V : Type} [DecidableEq V] {N : Numerics V} {s t : State V} {i : Instr V} {k : FaultKind}

theorem effect_of_faultCause (h : FaultCause N s k i) : Effect N s i (s.afterFault k) := by
  cases h with
  | noCell ho hi => exact .noCell (namesNoCell_iff.mp ho) hi
  | noTarget hi => exact .noTarget hi
  | zeroDivisor ha hz => exact .zeroDivisor ha hz

/-- An instruction keeps the fault status, or it is the fault entry for one of the causes. -/
theorem effect_fault (h : Effect N s i t) :
    t.fault = s.fault ∨ ∃ k, t = s.afterFault k ∧ FaultCause N s k i := by
  cases h
  case noCell hc hi => exact .inr ⟨_, rfl, .noCell (namesNoCell_iff.mpr hc) hi⟩
  case noTarget hi => exact .inr ⟨_, rfl, .noTarget hi⟩
  case zeroDivisor ha hz => exact .inr ⟨_, rfl, .zeroDivisor ha hz⟩
  case read => exact .inl (receive_fault ..)
  all_goals exact .inl rfl

/-- The hardware's instruction records a fault of a kind exactly when it has a cause of that kind. -/
theorem exec_fault_iff {s t : State} {i : Instr} (hn : s.fault = none) (h : exec i s = .next t) :
    (∃ p, t.fault = some { kind := k, at' := p }) ↔ FaultCause numQ s k i := by
  constructor
  · rintro ⟨p, hp⟩
    rcases effect_fault (effect_of_exec h) with e | ⟨k', rfl, hcause⟩
    · cases hp.symm.trans (e.trans hn)
    · cases hp
      exact hcause
  · intro hcause
    have ht : s.afterFault k = t :=
      Host.Outcome.next.inj ((exec_of_effect (effect_of_faultCause hcause)).symm.trans h)
    exact ⟨s.pc, ht ▸ afterFault_fault k s⟩

/-- The one cause of an ArithmeticFault at NUM_Q (R84). -/
theorem faultCause_arithmeticFault_iff {s : State} {i : Instr} :
    FaultCause numQ s .arithmeticFault i ↔
      ∃ a, i = .div (.address a) ∧ a < s.mem.capacity ∧ s.mem.get a = 0 := by
  constructor
  · rintro ⟨⟩
    case zeroDivisor a ha hz => exact ⟨a, rfl, ha, (numQ_isZero _).mp hz⟩
  · rintro ⟨a, rfl, ha, hz⟩
    exact .zeroDivisor ha ((numQ_isZero _).mpr hz)

omit [DecidableEq V] in
/-- The two causes of an AddressFault (R83, R50). -/
theorem faultCause_addressFault_iff :
    FaultCause N s .addressFault i ↔
      (∃ o, namesNoCell o s.mem ∧ usesCell o i) ∨
      ∃ q, i = .branch (.fraction q) ∨ i = .branchNeg (.fraction q) ∨ i = .branchZero (.fraction q) := by
  constructor
  · rintro ⟨⟩
    case noCell o ho hi => exact .inl ⟨o, ho, hi⟩
    case noTarget q hi => exact .inr ⟨q, hi⟩
  · rintro (⟨o, ho, hi⟩ | ⟨q, hi⟩)
    · exact .noCell ho hi
    · exact .noTarget hi

end Exceptions

end Sys2Proof.Machine

namespace Sys2Proof.Proofs

open Sys2Proof Sys2Proof.Machine

/-- Settles O42: the zero divisor is the one cause of an ArithmeticFault, and the fault is the fault entry. -/
theorem arithmeticFaultExactlyOnZeroDivisor : Obligations.ArithmeticFaultExactlyOnZeroDivisor := by
  refine fun i s t hn h => ⟨(exec_fault_iff hn h).trans faultCause_arithmeticFault_iff, fun ⟨p, hp⟩ => ?_⟩
  obtain rfl : t = s.afterFault .arithmeticFault := faultsArePrecise i s t _ hn h hp
  exact ⟨rfl, afterFault_mem .., afterFault_acc ..⟩

/-- Settles O43: an AddressFault comes of an operand that names no cell or of a branch target that is no integer. -/
theorem addressFaultCauses : Obligations.AddressFaultCauses :=
  fun _ _ _ hn h => (exec_fault_iff hn h).trans faultCause_addressFault_iff

/-- Settles O14: READ writes zero for the malformed token, and a written cell reads back. -/
theorem malformedInputStoresZeroAndWarns : Obligations.MalformedInputStoresZeroAndWarns :=
  fun s a _ hw ha hi => ⟨s.mem.set a 0, exec_of_effect (.read ha hi), rfl, get_set_self hw a 0,
    fun _ hb => get_set_of_ne hw hb 0⟩

end Sys2Proof.Proofs

/-! ## Reset and start (spec/70_reset_and_hazards.md): the host's two control events -/

namespace Sys2Proof.Proofs

open Sys2Proof Sys2Proof.Machine

/-- Settles O45: the effect of each event. A cell of the array that `reset` leaves reads as zero; every other field
after the two events is so by definition. -/
theorem resetAndStartEvents : Obligations.ResetAndStartEvents :=
  fun s _ hr => ⟨fun hc => ⟨_, step_of_hostEffect hr hc .reset, zeroFilled_capacity s.mem.capacity,
      get_zeroFilled s.mem.capacity, rfl, rfl, rfl, rfl, rfl, rfl, rfl, rfl, rfl⟩,
    fun hc => step_of_hostEffect hr hc .start⟩

end Sys2Proof.Proofs

/-! ## The encoding as a bijection (spec/30_encoding.md sections 2 to 5) -/

namespace Sys2Proof

/-- Decoding the word of an opcode of the table and an operand that the encoding admits reads both back (R47, R50). -/
theorem decode_wordOf {o : Operand} (ho : o.wf = true) {c : ℤ} (hc : 0 < c) :
    decode (wordOf Machine.numQ c o) = instrOf c o (wordOf Machine.numQ c o) := by
  rw [decode_eq (opc_of_word ho hc), operandOf_word ho hc]

/-- The encoder writes back the opcode of the row that the opcode map took (R52). -/
theorem encodeWith_instrOf {V : Type} (N : Numerics V) {c : ℕ} (hc : c ∈ recognisedOpcodes) (o : Operand V)
    (w : V) : encodeWith N (instrOf (c : ℤ) o w) = wordOf N c o := by
  rcases recognised_cases hc with rfl | rfl | rfl | rfl | rfl | rfl | rfl | rfl | rfl | rfl | rfl | rfl <;> rfl

/-- The opcode and the operand that the decoder makes of a word give the word back (R48, R50). -/
theorem wordOf_operandOf {w : Value} {c : ℤ} (hc : 0 < c) (h : opc w = some c) :
    wordOf Machine.numQ c (operandOfWith Machine.numQ c w) = w := by
  rw [wordOf_numQ, operandOf_value hc h, add_sub_cancel]

/-- Decoding loses nothing of a word: a row's operand keeps what the opcode leaves of it, the unrecognised case keeps
it whole (R53). -/
theorem encode_decode (w : Value) : encode (decode w) = w := by
  by_cases h : ∃ c ∈ recognisedOpcodes, opc w = some (c : ℤ)
  · obtain ⟨c, hc, ho⟩ := h
    rw [decode_eq ho, encode, encodeWith_instrOf _ hc, wordOf_operandOf (by exact_mod_cast recognised_pos hc) ho]
  · rw [decode_of_not_recognised fun c hc ho => h ⟨c, hc, ho⟩]
    rfl

/-- A word of at most four digits selects the row of its two high digits, with the two low ones as operand
(R47, R48). -/
theorem decode_of_lt (n : ℕ) (hn : n < 10000) :
    decode (n : Value) = instrOf ((n / 100 : ℕ) : ℤ) (.address (n % 100)) (n : Value) := by
  have h := decode_of_digits (c := n / 100) (a := n % 100) (by omega) (by omega)
  rwa [Nat.div_add_mod] at h

end Sys2Proof

namespace Sys2Proof.Proofs

open Sys2Proof Sys2Proof.Machine

/-- Settles O7: per constructor, the word has the row's opcode and the operand; a word of no row is kept whole. -/
theorem decodeOfEncode : Obligations.DecodeOfEncode
  | .read _, h => decode_wordOf h (c := 10) (by decide)
  | .write _, h => decode_wordOf h (c := 11) (by decide)
  | .load _, h => decode_wordOf h (c := 20) (by decide)
  | .store _, h => decode_wordOf h (c := 21) (by decide)
  | .add _, h => decode_wordOf h (c := 30) (by decide)
  | .sub _, h => decode_wordOf h (c := 31) (by decide)
  | .mul _, h => decode_wordOf h (c := 32) (by decide)
  | .div _, h => decode_wordOf h (c := 33) (by decide)
  | .branch _, h => decode_wordOf h (c := 40) (by decide)
  | .branchNeg _, h => decode_wordOf h (c := 41) (by decide)
  | .branchZero _, h => decode_wordOf h (c := 42) (by decide)
  | .halt _, h => decode_wordOf h (c := 43) (by decide)
  | .unrecognised _, h => decode_of_not_recognised (isUnrecognisedWord_iff.mp h)

/-- Settles O8: the decoder's fields lie in the ranges of the encoding and keep all of the word. -/
theorem encodeOfDecode : Obligations.EncodeOfDecode := fun w => ⟨decode_wf w, encode_decode w⟩

/-- Settles O1: each word of at most four digits is split into its high and low two; 12345 has opcode 123. -/
theorem decodeOfWrittenOutWords : Obligations.DecodeOfWrittenOutWords :=
  ⟨decode_of_lt 1007 (by decide), decode_of_lt 1100 (by decide), decode_of_lt 2007 (by decide),
    decode_of_lt 2199 (by decide), decode_of_lt 3008 (by decide), decode_of_lt 3108 (by decide),
    decode_of_lt 3208 (by decide), decode_of_lt 3308 (by decide), decode_of_lt 4010 (by decide),
    decode_of_lt 4107 (by decide), decode_of_lt 4209 (by decide), decode_of_lt 4399 (by decide),
    decode_of_lt 0 (by decide), decode_of_lt 4400 (by decide),
    decode_of_opc_outside (opc_of_nat 12345) (by decide)⟩

end Sys2Proof.Proofs
